-- ==== Sys2Proof/Word.lean ====
section
/-! DEFINITION. The word types of the be8 core (00_scope R5, R8): bytes and nibbles. -/

namespace Sys2Proof

/-- An 8-bit value: a register, a memory cell, an instruction (R5). -/
abbrev Byte := BitVec 8

/-- A 4-bit value: an opcode, an operand, an address (R5). -/
abbrev Nibble := BitVec 4

end Sys2Proof
end

