-- ==== Sys2Proof/Syntax.lean ====
section
/-! DEFINITION. The instructions: one constructor per row of spec/opcode_table.json (30_encoding R53).
Each holds the low nibble of its byte; where the instruction does not read it (R55, R54), the nibble is
kept so that an instruction is exactly one byte of memory (log entry 9). -/

namespace Sys2Proof

/-- The sixteen rows of the opcode table, in the table's order. -/
inductive Instr where
  | lda (addr : Nibble)
  | add (addr : Nibble)
  | sub (addr : Nibble)
  | sta (addr : Nibble)
  | out (ignored : Nibble)
  | jmp (target : Nibble)
  | ldi (imm : Nibble)
  | jc (target : Nibble)
  | hlt (ignored : Nibble)
  | illegal0 (ignored : Nibble)
  | illegal9 (ignored : Nibble)
  | illegalA (ignored : Nibble)
  | illegalB (ignored : Nibble)
  | illegalC (ignored : Nibble)
  | illegalD (ignored : Nibble)
  | illegalE (ignored : Nibble)
  deriving DecidableEq, Repr

end Sys2Proof
end

