-- ==== Sys2Proof/WellFormed.lean ====
section
/-! DEFINITION. Which terms of `Instr` are instructions of the ISA. Field widths need no check: the
types hold them (4 bits each). -/

namespace Sys2Proof

/-- The instruction is one of the nine defined ones (30_encoding R53); the seven illegal rows are not (R54). -/
def Instr.WellFormed : Instr → Bool
  | .lda _ => true
  | .add _ => true
  | .sub _ => true
  | .sta _ => true
  | .out _ => true
  | .jmp _ => true
  | .ldi _ => true
  | .jc _ => true
  | .hlt _ => true
  | .illegal0 _ => false
  | .illegal9 _ => false
  | .illegalA _ => false
  | .illegalB _ => false
  | .illegalC _ => false
  | .illegalD _ => false
  | .illegalE _ => false

/-- The canonical encodings: a defined instruction whose unread operand nibble is 0, as the assembler
emits it (30_encoding R55, R71). -/
def Instr.Canonical : Instr → Bool
  | .out n => n == 0
  | .hlt n => n == 0
  | i => i.WellFormed

end Sys2Proof
end

