-- ==== Sys2Proof/Decode.lean ====
section
/-! DEFINITION. Decoding and encoding (30_encoding R48, R49, R53-R59). The decoder reads the opcode's four
bits as the `encoding` column of spec/opcode_table.json writes them, one arm per opcode value, and is total
on bytes. The encoder is written from the opcode numbers of R53. -/

namespace Sys2Proof

/-- The high nibble of a byte, bits 7..4: the opcode field (R8, R48). -/
def highNibble (b : Byte) : Nibble := b.extractLsb' 4 4

/-- The low nibble of a byte, bits 3..0: the operand field (R8, R48). -/
def lowNibble (b : Byte) : Nibble := b.extractLsb' 0 4

/-- `(opcode << 4) | operand` (R48). -/
def packNibbles (op x : Nibble) : Byte := op ++ x

/-- The instruction with the opcode bits 7, 6, 5, 4 given and the operand nibble `x` (R53). -/
def decodeFields (b7 b6 b5 b4 : Bool) (x : Nibble) : Instr :=
  match b7, b6, b5, b4 with
  | false, false, false, false => .illegal0 x
  | false, false, false, true  => .lda x
  | false, false, true,  false => .add x
  | false, false, true,  true  => .sub x
  | false, true,  false, false => .sta x
  | false, true,  false, true  => .out x
  | false, true,  true,  false => .jmp x
  | false, true,  true,  true  => .ldi x
  | true,  false, false, false => .jc x
  | true,  false, false, true  => .illegal9 x
  | true,  false, true,  false => .illegalA x
  | true,  false, true,  true  => .illegalB x
  | true,  true,  false, false => .illegalC x
  | true,  true,  false, true  => .illegalD x
  | true,  true,  true,  false => .illegalE x
  | true,  true,  true,  true  => .hlt x

/-- The decoder, total on bytes; it reads nothing but the byte (R49, R59). -/
def decodeByte (b : Byte) : Instr :=
  decodeFields (b.getLsbD 7) (b.getLsbD 6) (b.getLsbD 5) (b.getLsbD 4) (lowNibble b)

/-- Why a sequence of bytes holds no instruction. -/
inductive DecodeError where
  /-- There is no byte: an instruction is exactly one byte (R57). -/
  | noByte
  deriving DecidableEq, Repr

/-- What the decoder answers on a sequence of bytes: the first instruction and the bytes after it, or a rejection. -/
inductive Decoded where
  | instr (i : Instr) (rest : List Byte)
  | reject (why : DecodeError)
  deriving DecidableEq, Repr

/-- Decode the first instruction of any sequence of bytes (R57: one byte each). -/
def decode : List Byte → Decoded
  | [] => .reject .noByte
  | b :: rest => .instr (decodeByte b) rest

/-- The opcode of each instruction (R53). -/
def Instr.opcode : Instr → Nibble
  | .lda _ => 0x1#4
  | .add _ => 0x2#4
  | .sub _ => 0x3#4
  | .sta _ => 0x4#4
  | .out _ => 0x5#4
  | .jmp _ => 0x6#4
  | .ldi _ => 0x7#4
  | .jc _ => 0x8#4
  | .hlt _ => 0xF#4
  | .illegal0 _ => 0x0#4
  | .illegal9 _ => 0x9#4
  | .illegalA _ => 0xA#4
  | .illegalB _ => 0xB#4
  | .illegalC _ => 0xC#4
  | .illegalD _ => 0xD#4
  | .illegalE _ => 0xE#4

/-- The operand nibble of each instruction, read or not (R48, R50). -/
def Instr.operand : Instr → Nibble
  | .lda x => x
  | .add x => x
  | .sub x => x
  | .sta x => x
  | .out x => x
  | .jmp x => x
  | .ldi x => x
  | .jc x => x
  | .hlt x => x
  | .illegal0 x => x
  | .illegal9 x => x
  | .illegalA x => x
  | .illegalB x => x
  | .illegalC x => x
  | .illegalD x => x
  | .illegalE x => x

/-- The one byte of an instruction: `encode(op, x) = op * 16 + x` (R59). -/
def encodeByte (i : Instr) : Byte := packNibbles i.opcode i.operand

/-- The bytes of an instruction (R57: exactly one). -/
def encode (i : Instr) : List Byte := [encodeByte i]

/-- The byte that the bits of `w` below `nbits` make, the bits above being 0 (the table gives every row 8 bits). -/
def tableByte (nbits w : Nat) : Byte := BitVec.ofNat 8 (w % 2 ^ nbits)

/-- The instruction the decoder reads from the table word `w`. -/
def decodeTableWord (nbits w : Nat) : Option Instr :=
  match decode [tableByte nbits w] with
  | .instr i _ => some i
  | .reject _ => none

end Sys2Proof
end

