-- ==== Sys2Proof/Config.lean ====
section
/-! DEFINITION. What 00_scope R5 fixes for the machine, and the values the spec leaves open. The
open values are constants without a body: no proof can see what they are. -/

namespace Sys2Proof

/-- Memory size: 16 bytes, addresses 0..15 (R5, R32). -/
def Config.memorySize : Nat := 16

/-- `out_data` at clock edge `t` while `out_valid = 0`: R111 states no value there (log entry 6). -/
opaque Config.idleOutData : Nat → Byte

/-- `fault_opcode` at clock edge `t` while `faulted = 0`: any value (R120, log entry 6). -/
opaque Config.idleFaultOpcode : Nat → Nibble

/-- `fault_addr` at clock edge `t` while `faulted = 0`: any value (R120, log entry 6). -/
opaque Config.idleFaultAddr : Nat → Nibble

/-- Which negative integer `exitFailureCode` is (R119, D25, log entry 7). -/
opaque Config.exitFailureIndex : Nat

/-- The parameter `exitFailureCode`, a negative integer: every one of them is some index (R119). -/
def Config.exitFailureCode : Int := Int.negSucc Config.exitFailureIndex

/-- Which nonzero exit status the assembler gives for its `k`-th kind of error (R75, log entry 8). -/
opaque Config.assemblerExitSeed : Nat → Int

/-- The assembler's exit status for its `k`-th kind of error: nonzero, otherwise open (R75). -/
def Config.assemblerExitStatus (k : Nat) : Int :=
  if 0 ≤ Config.assemblerExitSeed k then Config.assemblerExitSeed k + 1
  else Config.assemblerExitSeed k

end Sys2Proof
end

