-- ==== Sys2Proof/Machine/State.lean ====
section
/-! DEFINITION. The state of the core (10_state R12: "the complete state of the core is the following, and
nothing else"), its reset value (R30, R121), and the reasons a step could stop. -/

namespace Sys2Proof.Machine

/-- The fault record `(opcode, addr)`: the illegal opcode and the address it was fetched from (60 R103). -/
structure FaultRecord where
  opcode : Nibble
  addr : Nibble
  deriving DecidableEq, Repr

/-- The run state (10_state R27). `faulted` is the architected fault of the hardware (93 K1-1). -/
inductive RunState where
  | running
  | halted
  | faulted (reason : FaultRecord)
  deriving DecidableEq, Repr

/-- Memory: the listed cells, addresses strictly rising and below 16, no cell listed that holds 0. An
unlisted cell holds 0, as R30 and R38 give for every cell past the image (log entry 3). -/
abbrev Memory := List Host.Cell

/-- The whole state of the core: the nine rows of R12's table. -/
structure State where
  /-- Program counter, 8 bits, of which bits 3..0 are meaningful (R16). -/
  pc : Byte
  /-- Instruction register (R22). -/
  ir : Byte
  /-- Memory-address register (R23). -/
  mar : Nibble
  /-- Accumulator (R13). -/
  ra : Byte
  /-- Secondary register (R14). -/
  rb : Byte
  /-- Carry flag (R20). -/
  c : Bool
  /-- The sixteen memory cells (R26, R32). -/
  mem : Memory
  /-- The run state (R27). -/
  run : RunState
  /-- The output stream, oldest value first (R29). -/
  out : List Byte
  deriving DecidableEq, Repr

/-- Reasons for which a step of the model could stop with a fault. No step does: the one exception of the
core (60 R101) is the run state `faulted`, a next state. -/
inductive Fault where
  /-- An access to an address outside the sixteen cells. NOBODY raises it: R34 takes every address mod 16
  (K1-2 lets a model fault here instead and says no result differs). Safe: it would stop where the hardware
  goes on (log entry 11). -/
  | addressOutOfRange
  deriving DecidableEq, Repr

/-- Reasons for which the model could give an instruction no meaning. -/
inductive Refusal where
  /-- An instruction without a meaning yet. No arm of `exec` answers it: every row of the opcode table
  has its meaning. Safe: it would stop where the hardware goes on. -/
  | notModelled (mnemonic : String)
  deriving DecidableEq, Repr

/-- The core right after reset with the empty image (R30, R121): running, every register 0, carry clear,
no output, sixteen zero cells. `State.resetWith` is the reset with any image (log entry 4). -/
def State.reset : State where
  pc := 0
  ir := 0
  mar := 0
  ra := 0
  rb := 0
  c := false
  mem := []
  run := .running
  out := []

end Sys2Proof.Machine
end

