-- ==== Sys2Proof/Machine/Ops.lean ====
section
/-! DEFINITION. The named operations over memory, registers, the run state and the output stream; the
fetch and increment of every cycle (40_cycle R80, R81); taking the illegal-instruction exception (60 R102);
reset with an image (20 R38, 70 R121). There is no return from an exception (60 R105): reset alone leaves
`faulted`. -/

namespace Sys2Proof.Machine

/-- What an execute phase answers. -/
abbrev Answer := Host.Outcome State Fault Refusal

/-! ### Memory (20_memory R32-R38, 00_scope R9) -/

/-- The value listed for address `a`, or 0, what an unlisted cell holds. -/
def Memory.lookup (a : Nat) : Memory → Byte
  | [] => 0
  | (b, v) :: rest => if b = a then v else Memory.lookup a rest

/-- `MemRead(a, 1)`: the value of `M[a mod 16]` (R9, R34). -/
def Memory.read (m : Memory) (a : Nat) : Byte := Memory.lookup (a % Config.memorySize) m

/-- The memory without the cell at `a`. -/
def Memory.erase (a : Nat) : Memory → Memory
  | [] => []
  | (b, v) :: rest => if b = a then Memory.erase a rest else (b, v) :: Memory.erase a rest

/-- The memory with the cell `(a, v)` put before the first listed cell of a higher address. -/
def Memory.place (a : Nat) (v : Byte) : Memory → Memory
  | [] => [(a, v)]
  | (b, w) :: rest => if a < b then (a, v) :: (b, w) :: rest else (b, w) :: Memory.place a v rest

/-- The memory whose cell at `a` holds `v`; 0 is held by listing nothing. -/
def Memory.update (a : Nat) (v : Byte) (m : Memory) : Memory :=
  if v = 0 then Memory.erase a m else Memory.place a v (Memory.erase a m)

/-- `MemWrite(a, 1, v)`: `M[a mod 16] <- v` (R9, R34). -/
def Memory.write (m : Memory) (a : Nat) (v : Byte) : Memory :=
  Memory.update (a % Config.memorySize) v m

/-- The listed cells have strictly rising addresses from `lo` on, below 16, and hold no 0. -/
def Memory.wfFrom (lo : Nat) : Memory → Bool
  | [] => true
  | (a, v) :: rest =>
    decide (lo ≤ a) && decide (a < Config.memorySize) && decide (v ≠ 0) && Memory.wfFrom (a + 1) rest

/-- The canonical form of memory. -/
def Memory.wf (m : Memory) : Bool := Memory.wfFrom 0 m

/-- Write the bytes of the list to the addresses from `a` on. -/
def Memory.loadFrom (a : Nat) : List Byte → Memory → Memory
  | [], m => m
  | b :: bs, m => Memory.loadFrom (a + 1) bs (Memory.write m a b)

/-- The memory at reset with the program image: byte `i` in cell `i`, 0 past the image, the bytes past 16
discarded (R38). -/
def Memory.load (image : List Byte) : Memory :=
  Memory.loadFrom 0 (image.take Config.memorySize) []

/-! ### Registers, run state, output -/

/-- `zext_8` of a nibble (R9). -/
def zext8 (x : Nibble) : Byte := x.setWidth 8

/-- `PC <- v`. -/
def State.setPC (s : State) (v : Byte) : State := { s with pc := v }
/-- `IR <- v`. -/
def State.setIR (s : State) (v : Byte) : State := { s with ir := v }
/-- `MAR <- a`. -/
def State.setMAR (s : State) (a : Nibble) : State := { s with mar := a }
/-- `RA <- v`. -/
def State.setRA (s : State) (v : Byte) : State := { s with ra := v }
/-- `RB <- v`. -/
def State.setRB (s : State) (v : Byte) : State := { s with rb := v }
/-- `C <- b`. -/
def State.setC (s : State) (b : Bool) : State := { s with c := b }
/-- The run state becomes `r`. -/
def State.setRun (s : State) (r : RunState) : State := { s with run := r }
/-- `MemWrite(a, 1, v)` on the machine's memory. -/
def State.store (s : State) (a : Nat) (v : Byte) : State := { s with mem := Memory.write s.mem a v }
/-- `emit(v)`: append `v` to the output stream (R9, R29). -/
def State.emit (s : State) (v : Byte) : State := { s with out := s.out ++ [v] }

/-! ### The parts of a cycle common to all instructions (40_cycle R80, R81) -/

/-- The address of a fetch, `PC[3:0]` (R34, R80). -/
def State.fetchAddress (s : State) : Nibble := lowNibble s.pc

/-- Fetch: `MAR <- PC[3:0]; IR <- MemRead(MAR, 1)` (R80). -/
def State.fetch (s : State) : State :=
  (s.setMAR s.fetchAddress).setIR (Memory.read s.mem s.fetchAddress.toNat)

/-- Increment: `PC <- zext_8((PC[3:0] + 1) mod 16)` (R81). -/
def State.increment (s : State) : State := s.setPC (zext8 (s.fetchAddress + 1))

/-- Fetch, then increment: what every cycle does before it decodes (R84). -/
def State.fetchIncrement (s : State) : State := s.fetch.increment

/-! ### How an execute phase ends -/

/-- `halt`: the cycle ends in the run state `Halted` (R9, R100). -/
def halt (s : State) : Answer := .next (s.setRun .halted)

/-- Taking the one exception: `raise IllegalInstruction(op, MAR)`. The run state becomes `Faulted(op, MAR)`
and nothing else is written; there is no handler, so the machine stays there (R102, R103, R105). -/
def raiseIllegal (op : Nibble) (s : State) : Answer := .next (s.setRun (.faulted ⟨op, s.mar⟩))

/-- A clock edge in `Halted` or `Faulted`: no cycle runs and nothing changes (R28, R79, log entry 1). -/
def stayStopped (s : State) : Answer := .next s

/-! ### Reset with an image, and placing an instruction for the next fetch -/

/-- The core right after reset with the program image `image` (R30, R38, R121). -/
def State.resetWith (image : List Byte) : State := { State.reset with mem := Memory.load image }

/-- The byte `b` stored where the next cycle fetches, and the core running, as a fetch needs (R79, R80;
log entry 5). -/
def State.placeInstruction (s : State) (b : Byte) : State :=
  (s.store s.fetchAddress.toNat b).setRun .running

end Sys2Proof.Machine
end

