-- ==== Sys2Proof/Machine/Operands.lean ====
section
/-! DEFINITION. Every operand form of the spec (30_encoding R50-R52, 20_memory R34): address, immediate, jump
target. (The fourth form, ignored, has no meaning: R55.) -/

namespace Sys2Proof.Machine

/-- An address operand: the nibble itself, absolute and direct (R34, R52). -/
def operandAddress (x : Nibble) : Nat := x.toNat

/-- The byte an address operand names: `MemRead(x, 1)` (R9, R33). -/
def State.memOperand (s : State) (x : Nibble) : Byte := Memory.read s.mem (operandAddress x)

/-- The immediate of `ldi`, zero-extended to 8 bits (R51). -/
def immediate (x : Nibble) : Byte := zext8 x

/-- The target of `jmp` and `jc`, written to PC zero-extended (R52). -/
def jumpTarget (x : Nibble) : Byte := zext8 x

end Sys2Proof.Machine
end

