-- ==== Sys2Proof/Machine/Flags.lean ====
section
/-! DEFINITION. The ALU and its one flag (42_arithmetic R91, R94): computed on unbounded integers, reduced
mod 256. There is no carry-in and no other flag (R21). -/

namespace Sys2Proof.Machine

/-- The carry-out of `add8`: 1 iff `p + q >= 256` (R91). -/
def carryOut (p q : Byte) : Bool := decide (256 ≤ p.toNat + q.toNat)

/-- `add8`'s result: `(p + q) mod 256` (R91). -/
def add8 (p q : Byte) : Byte := BitVec.ofNat 8 (p.toNat + q.toNat)

/-- `sub8`: `(p - q) mod 256`, with no flag output (R91). -/
def sub8 (p q : Byte) : Byte := BitVec.ofInt 8 ((p.toNat : Int) - (q.toNat : Int))

end Sys2Proof.Machine
end

