-- ==== Sys2Proof/Machine/Arithmetic.lean ====
section
/-! DEFINITION. The execute phases of `add` and `sub` (42_arithmetic R92, R93). -/

namespace Sys2Proof.Machine

/-- `add x`: `RB <- MemRead(x, 1); C <- (RA + RB >= 256); RA <- (RA + RB) mod 256`, the carry computed from
RA before it is overwritten (R92). -/
def execAdd (x : Nibble) (s : State) : Answer :=
  let loaded := s.setRB (s.memOperand x)
  .next ((loaded.setC (carryOut loaded.ra loaded.rb)).setRA (add8 loaded.ra loaded.rb))

/-- `sub x`: `RB <- MemRead(x, 1); RA <- (RA - RB) mod 256`; C keeps its value (R93). -/
def execSub (x : Nibble) (s : State) : Answer :=
  let loaded := s.setRB (s.memOperand x)
  .next (loaded.setRA (sub8 loaded.ra loaded.rb))

end Sys2Proof.Machine
end

