-- ==== Sys2Proof/Machine/ControlTransfer.lean ====
section
/-! DEFINITION. The execute phases of `jmp` and `jc` (43_control_transfer R96, R97). -/

namespace Sys2Proof.Machine

/-- `jmp x`: `pc <- zext_8(x)` (R96). -/
def execJmp (x : Nibble) (s : State) : Answer := .next (s.setPC (jumpTarget x))

/-- `jc x`: `if C = 1 then pc <- zext_8(x)`; C is read and not cleared (R97). -/
def execJc (x : Nibble) (s : State) : Answer :=
  if s.c then .next (s.setPC (jumpTarget x)) else .next s

end Sys2Proof.Machine
end

