-- ==== Sys2Proof/Machine/DataTransfer.lean ====
section
/-! DEFINITION. The execute phases of `lda`, `sta` and `ldi` (41_data_transfer R88-R90). -/

namespace Sys2Proof.Machine

/-- `lda x`: `RA <- MemRead(x, 1)` (R88). -/
def execLda (x : Nibble) (s : State) : Answer := .next (s.setRA (s.memOperand x))

/-- `sta x`: `MemWrite(x, 1, RA)` (R89). -/
def execSta (x : Nibble) (s : State) : Answer := .next (s.store (operandAddress x) s.ra)

/-- `ldi x`: `RA <- zext_8(x)` (R90). -/
def execLdi (x : Nibble) (s : State) : Answer := .next (s.setRA (immediate x))

end Sys2Proof.Machine
end

