-- ==== Sys2Proof/Machine/IllegalOpcode.lean ====
section
/-! DEFINITION. The execute phases of the seven illegal opcodes (60_exceptions R102): each takes the
illegal-instruction exception with its own opcode; the operand nibble changes nothing (30_encoding R54). -/

namespace Sys2Proof.Machine

/-- Opcode 0x0: `raise IllegalInstruction(0x0, MAR)` (R102). -/
def execIllegal0 (_ignored : Nibble) (s : State) : Answer := raiseIllegal 0x0#4 s

/-- Opcode 0x9: `raise IllegalInstruction(0x9, MAR)` (R102). -/
def execIllegal9 (_ignored : Nibble) (s : State) : Answer := raiseIllegal 0x9#4 s

/-- Opcode 0xA: `raise IllegalInstruction(0xA, MAR)` (R102). -/
def execIllegalA (_ignored : Nibble) (s : State) : Answer := raiseIllegal 0xA#4 s

/-- Opcode 0xB: `raise IllegalInstruction(0xB, MAR)` (R102). -/
def execIllegalB (_ignored : Nibble) (s : State) : Answer := raiseIllegal 0xB#4 s

/-- Opcode 0xC: `raise IllegalInstruction(0xC, MAR)` (R102). -/
def execIllegalC (_ignored : Nibble) (s : State) : Answer := raiseIllegal 0xC#4 s

/-- Opcode 0xD: `raise IllegalInstruction(0xD, MAR)` (R102). -/
def execIllegalD (_ignored : Nibble) (s : State) : Answer := raiseIllegal 0xD#4 s

/-- Opcode 0xE: `raise IllegalInstruction(0xE, MAR)` (R102). -/
def execIllegalE (_ignored : Nibble) (s : State) : Answer := raiseIllegal 0xE#4 s

end Sys2Proof.Machine
end

