-- ==== Sys2Proof/Machine/OutputHalt.lean ====
section
/-! DEFINITION. The execute phases of `out` and `hlt` (44_output_and_halt R99, R100). Neither reads its
operand nibble (30_encoding R55). -/

namespace Sys2Proof.Machine

/-- `out`: `emit(RA)` (R99). -/
def execOut (_ignored : Nibble) (s : State) : Answer := .next (s.emit s.ra)

/-- `hlt`: `halt` (R100). -/
def execHlt (_ignored : Nibble) (s : State) : Answer := halt s

end Sys2Proof.Machine
end

