-- ==== Sys2Proof/Machine/Dispatch.lean ====
section
/-! DEFINITION. The execute phase's dispatch on the instruction (40_cycle R83). It runs after fetch and
increment and does not look at the run state: `step` does (log entry 2). -/

namespace Sys2Proof.Machine

def exec (i : Instr) (s : State) : Host.Outcome State Fault Refusal :=
  match i with
  | .lda x => Sys2Proof.Machine.execLda x s
  | .add x => Sys2Proof.Machine.execAdd x s
  | .sub x => Sys2Proof.Machine.execSub x s
  | .sta x => Sys2Proof.Machine.execSta x s
  | .out n => Sys2Proof.Machine.execOut n s
  | .jmp x => Sys2Proof.Machine.execJmp x s
  | .ldi x => Sys2Proof.Machine.execLdi x s
  | .jc x => Sys2Proof.Machine.execJc x s
  | .hlt n => Sys2Proof.Machine.execHlt n s
  | .illegal0 n => Sys2Proof.Machine.execIllegal0 n s
  | .illegal9 n => Sys2Proof.Machine.execIllegal9 n s
  | .illegalA n => Sys2Proof.Machine.execIllegalA n s
  | .illegalB n => Sys2Proof.Machine.execIllegalB n s
  | .illegalC n => Sys2Proof.Machine.execIllegalC n s
  | .illegalD n => Sys2Proof.Machine.execIllegalD n s
  | .illegalE n => Sys2Proof.Machine.execIllegalE n s

end Sys2Proof.Machine
end

