-- ==== Sys2Proof/Machine/Step.lean ====
section
/-! DEFINITION. One step of the machine: one whole fetch-increment-decode-execute cycle while running
(40_cycle R79-R84), nothing while stopped (R79, 10_state R28). -/

namespace Sys2Proof.Machine

/-- One clock edge without reset (R7, R79, R84). -/
def step (s : State) : Host.Outcome State Fault Refusal :=
  match s.run with
  | .running => exec (decodeByte s.fetchIncrement.ir) s.fetchIncrement
  | .halted => stayStopped s
  | .faulted _ => stayStopped s

/-- `s` with the table word's byte where the next step fetches it (log entry 5). -/
def State.withFetchWord (s : State) (nbits w : Nat) : State := s.placeInstruction (tableByte nbits w)

end Sys2Proof.Machine
end

