-- ==== Sys2Proof/Machine/Assembler.lean ====
section
/-! DEFINITION. The two-pass assembler (30_encoding R60-R78): a function from source text, a list of bytes,
to an image or an assembly error. Both passes run over the same tokens, as the spec describes them. -/

namespace Sys2Proof.Machine

/-- A token: a maximal run of bytes that are not separators (R61). -/
abbrev Token := List Byte

/-- The bytes of an ASCII spelling. -/
def ascii (s : String) : List Byte := s.toList.map fun ch => BitVec.ofNat 8 ch.toNat

/-- The assembly errors (R75). -/
inductive AsmError where
  | missingOperand
  | undefinedReference
  | malformedReference
  | badLiteral
  | overCapacity
  deriving DecidableEq, Repr

/-- What assembling answers: a value, or the error that ended it at once (R60, R75). -/
abbrev AsmResult (α : Type) := Except AsmError α

/-! ### Tokens (R61) -/

/-- The separators: NUL, tab, LF, VT, FF, CR, space (R61). -/
def isSeparator (b : Byte) : Bool :=
  b == 0x00 || b == 0x09 || b == 0x0A || b == 0x0B || b == 0x0C || b == 0x0D || b == 0x20

/-- The tokens of the text, where `acc` holds the bytes of the token that has begun. -/
def tokensFrom (acc : Token) : List Byte → List Token
  | [] => if acc = [] then [] else [acc]
  | b :: bs =>
    if isSeparator b then
      if acc = [] then tokensFrom [] bs else acc :: tokensFrom [] bs
    else tokensFrom (acc ++ [b]) bs

/-- The token sequence of a source text (R61). -/
def tokenize (source : List Byte) : List Token := tokensFrom [] source

/-! ### Keywords (R62) -/

/-- The instruction mnemonics (R62). -/
inductive Mnemonic where
  | lda | add | sub | sta | out | jmp | ldi | jc | hlt
  deriving DecidableEq, Repr

/-- The control nibble of a mnemonic (R62). -/
def Mnemonic.control : Mnemonic → Nibble
  | .lda => 0x1#4
  | .add => 0x2#4
  | .sub => 0x3#4
  | .sta => 0x4#4
  | .out => 0x5#4
  | .jmp => 0x6#4
  | .ldi => 0x7#4
  | .jc => 0x8#4
  | .hlt => 0xF#4

/-- Whether the mnemonic takes an operand token (R62). -/
def Mnemonic.takesOperand : Mnemonic → Bool
  | .lda => true
  | .add => true
  | .sub => true
  | .sta => true
  | .out => false
  | .jmp => true
  | .ldi => true
  | .jc => true
  | .hlt => false

/-- The instruction a mnemonic and an operand nibble stand for (R53, R62). -/
def Mnemonic.toInstr (x : Nibble) : Mnemonic → Instr
  | .lda => .lda x
  | .add => .add x
  | .sub => .sub x
  | .sta => .sta x
  | .out => .out x
  | .jmp => .jmp x
  | .ldi => .ldi x
  | .jc => .jc x
  | .hlt => .hlt x

/-- A token that is not skipped: an instruction's mnemonic, or the pseudo-instruction `db` (R62). -/
inductive Keyword where
  | instr (m : Mnemonic)
  | db
  deriving DecidableEq, Repr

/-- The keywords' spellings, matched byte for byte (R62). -/
def keywordTable : List (Token × Keyword) :=
  [(ascii "lda", .instr .lda), (ascii "add", .instr .add), (ascii "sub", .instr .sub),
   (ascii "sta", .instr .sta), (ascii "out", .instr .out), (ascii "jmp", .instr .jmp),
   (ascii "ldi", .instr .ldi), (ascii "jc", .instr .jc), (ascii "hlt", .instr .hlt),
   (ascii "db", .db)]

/-- The keyword a token spells, if it spells one (R62). -/
def keywordOf (t : Token) : Option Keyword := keywordTable.lookup t

/-! ### Pass one and the symbol table (R63, R64) -/

/-- The symbol table: `(name, offset)` pairs in declaration order (R64). -/
abbrev SymbolTable := List (Token × Nat)

/-- Pass one from the offset `off` on, with the table so far (R63). -/
def passOne (off : Nat) (table : SymbolTable) : List Token → AsmResult SymbolTable
  | [] => .ok table
  | t :: ts =>
    match keywordOf t with
    | none => passOne off table ts
    | some (.instr m) =>
      if m.takesOperand then
        match ts with
        | [] => .error .missingOperand
        | _ :: rest => passOne (off + 1) table rest
      else passOne (off + 1) table ts
    | some .db =>
      match ts with
      | name :: _ :: rest => passOne (off + 1) (table ++ [(name, off)]) rest
      | _ => .error .missingOperand

/-! ### Name matching (R65) -/

/-- The parameter `symbolMatch` (R65, D19). -/
inductive SymbolMatch where
  | exact
  | byPrefix
  deriving DecidableEq, Repr

/-- The table name `n` matches the reference name `r`: equal, or a prefix of it (R65). -/
def SymbolMatch.holds (mode : SymbolMatch) (n r : Token) : Bool :=
  match mode with
  | .exact => n == r
  | .byPrefix => n.isPrefixOf r

/-- The offset of the last entry in table order that matches (R64, R65). -/
def lookupName (mode : SymbolMatch) (r : Token) : SymbolTable → Option Nat
  | [] => none
  | (n, off) :: rest =>
    match lookupName mode r rest with
    | some found => some found
    | none => if mode.holds n r then some off else none

/-! ### Literals (R68, R72) -/

/-- The value of a decimal digit `0-9`. -/
def decimalDigit (b : Byte) : Option Nat :=
  if 0x30 ≤ b.toNat ∧ b.toNat ≤ 0x39 then some (b.toNat - 0x30) else none

/-- The value of a hexadecimal digit `0-9`, `a-f`, `A-F` (R68). -/
def hexDigit (b : Byte) : Option Nat :=
  if 0x30 ≤ b.toNat ∧ b.toNat ≤ 0x39 then some (b.toNat - 0x30)
  else if 0x61 ≤ b.toNat ∧ b.toNat ≤ 0x66 then some (b.toNat - 0x61 + 10)
  else if 0x41 ≤ b.toNat ∧ b.toNat ≤ 0x46 then some (b.toNat - 0x41 + 10)
  else none

/-- The number the hexadecimal digits spell, after digits worth `acc`. -/
def hexValue (acc : Nat) : List Byte → Option Nat
  | [] => some acc
  | b :: bs =>
    match hexDigit b with
    | none => none
    | some d => hexValue (16 * acc + d) bs

/-- The number the decimal digits spell, after digits worth `acc`. -/
def decimalValue (acc : Nat) : List Byte → Option Nat
  | [] => some acc
  | b :: bs =>
    match decimalDigit b with
    | none => none
    | some d => decimalValue (10 * acc + d) bs

/-- The token without a leading `0x` or `0X` (R68). -/
def dropHexMark : Token → Token
  | b0 :: b1 :: rest =>
    if b0 = 0x30#8 ∧ (b1 = 0x78#8 ∨ b1 = 0x58#8) then rest else b0 :: b1 :: rest
  | t => t

/-- The operand nibble of a hexadecimal literal: its value mod 16; at least one digit (R68). -/
def hexNibble (t : Token) : Option Nibble :=
  match dropHexMark t with
  | [] => none
  | b :: bs => (hexValue 0 (b :: bs)).map (BitVec.ofNat 4)

/-- The number of one or more decimal digits. -/
def decimalNat : Token → Option Nat
  | [] => none
  | b :: bs => decimalValue 0 (b :: bs)

/-- The byte of a `db` value: optional `-`, one or more decimal digits, value mod 256 (R72). -/
def decimalByte : Token → Option Byte
  | [] => none
  | b :: bs =>
    if b = 0x2D#8 then (decimalNat bs).map fun (n : Nat) => BitVec.ofInt 8 (-(n : Int))
    else (decimalNat (b :: bs)).map (BitVec.ofNat 8)

/-! ### Operands (R67) -/

/-- The token begins with `[`. -/
def isReference (t : Token) : Bool := t.head? == some 0x5B#8

/-- The name of a reference: between the leading `[` and a `]` that is the last byte, not empty (R67, log
entry 10). -/
def referenceName (t : Token) : Option Token :=
  match t.tail.getLast? with
  | none => none
  | some b => if b = 0x5D#8 ∧ t.tail.dropLast ≠ [] then some t.tail.dropLast else none

/-- The operand nibble of the operand token `t` (R67, R74). -/
def resolveOperand (mode : SymbolMatch) (table : SymbolTable) (t : Token) : AsmResult Nibble :=
  if isReference t then
    match referenceName t with
    | none => .error .malformedReference
    | some name =>
      match lookupName mode name table with
      | none => .error .undefinedReference
      | some off => if off < Config.memorySize then .ok (BitVec.ofNat 4 off) else .error .overCapacity
  else
    match hexNibble t with
    | none => .error .badLiteral
    | some x => .ok x

/-! ### Pass two (R66) -/

/-- One emission of pass two: an instruction byte, or a `db`'s data byte with its name. The image is the
bytes alone; the rest is what the assembler intended, kept so that R70 and R76 can be said (log entry 10). -/
inductive Emission where
  | code (m : Mnemonic) (x : Nibble)
  | data (name : Token) (v : Byte)
  deriving DecidableEq, Repr

/-- The emitted byte: `(control << 4) | operand`, or the data byte (R66, R72). -/
def Emission.byte : Emission → Byte
  | .code m x => packNibbles m.control x
  | .data _ v => v

/-- Emit `e` at the offset `off`, then what `rest` emits; no emission at 16 or beyond (R66, R74). -/
def emitAt (off : Nat) (e : Emission) (rest : AsmResult (List Emission)) : AsmResult (List Emission) :=
  if off < Config.memorySize then
    match rest with
    | .ok es => .ok (e :: es)
    | .error err => .error err
  else .error .overCapacity

/-- Pass two from the emission offset `off` on (R66, R67, R71, R72). -/
def passTwo (mode : SymbolMatch) (table : SymbolTable) (off : Nat) :
    List Token → AsmResult (List Emission)
  | [] => .ok []
  | t :: ts =>
    match keywordOf t with
    | none => passTwo mode table off ts
    | some (.instr m) =>
      if m.takesOperand then
        match ts with
        | [] => .error .missingOperand
        | operand :: rest =>
          match resolveOperand mode table operand with
          | .error err => .error err
          | .ok x => emitAt off (.code m x) (passTwo mode table (off + 1) rest)
      else emitAt off (.code m 0) (passTwo mode table (off + 1) ts)
    | some .db =>
      match ts with
      | name :: value :: rest =>
        match decimalByte value with
        | none => .error .badLiteral
        | some v => emitAt off (.data name v) (passTwo mode table (off + 1) rest)
      | _ => .error .missingOperand

/-! ### The assembler (R60) -/

/-- Both passes over a token sequence. -/
def assembleTokens (mode : SymbolMatch) (ts : List Token) : AsmResult (List Emission) :=
  match passOne 0 [] ts with
  | .error err => .error err
  | .ok table => passTwo mode table 0 ts

/-- The image of a list of emissions: one byte each, in order (R66). -/
def imageOf (es : List Emission) : List Byte := es.map Emission.byte

/-- Assemble a source text: an image, or an error and no image (R60). -/
def assemble (mode : SymbolMatch) (source : List Byte) : AsmResult (List Byte) :=
  match assembleTokens mode (tokenize source) with
  | .error err => .error err
  | .ok es => .ok (imageOf es)

/-- The assembler in its default mode (R65: exact). -/
def assembleDefault (source : List Byte) : AsmResult (List Byte) := assemble .exact source

/-- The number of an error kind, the argument of `Config.assemblerExitStatus`. -/
def AsmError.index : AsmError → Nat
  | .missingOperand => 0
  | .undefinedReference => 1
  | .malformedReference => 2
  | .badLiteral => 3
  | .overCapacity => 4

/-- The assembler's exit status on an error: nonzero, otherwise open (R75, log entry 8). -/
def AsmError.exitStatus (e : AsmError) : Int := Config.assemblerExitStatus e.index

end Sys2Proof.Machine
end

