-- ==== Sys2Proof/Machine/Ports.lean ====
section
/-! DEFINITION. The boundary of the block (00_scope R6): the clock edge with its reset input (70 R122), the
output ports (60 R111, R120), and what the host makes of a run (R111, R117, R119). -/

namespace Sys2Proof.Machine

/-- One active clock edge. With `rst` asserted no cycle runs and the whole state, memory included, is set to
the initial state with the image; otherwise it is one step (R7, R122; log entry 14). -/
def clockEdge (rst : Bool) (image : List Byte) (s : State) : Answer :=
  if rst then .next (State.resetWith image) else step s

/-- The output signals of the block (R6). -/
structure Ports where
  outValid : Bool
  outData : Byte
  halted : Bool
  faulted : Bool
  faultOpcode : Nibble
  faultAddr : Nibble
  deriving DecidableEq, Repr

/-- The step taken from `s` executes `out` (R99, R111): the core runs, is not in reset, and the byte it
fetches has opcode 0x5. -/
def State.outFires (rst : Bool) (s : State) : Bool :=
  !rst && decide (s.run = .running) &&
    decide (highNibble (Memory.read s.mem s.fetchAddress.toNat) = 0x5#4)

/-- `out_data`: RA in a step that executes `out` (R111); otherwise a free value (log entry 6). -/
def State.outData (rst : Bool) (t : Nat) (s : State) : Byte :=
  if s.outFires rst then s.ra else Config.idleOutData t

/-- `halted = 1` exactly when the run state is `Halted` (R120). -/
def RunState.isHalted : RunState → Bool
  | .running => false
  | .halted => true
  | .faulted _ => false

/-- `faulted = 1` exactly when the run state is `Faulted` (R120). -/
def RunState.isFaulted : RunState → Bool
  | .running => false
  | .halted => false
  | .faulted _ => true

/-- `fault_opcode`: the fault record's while faulted, otherwise any value (R120). -/
def RunState.faultOpcodePort (t : Nat) : RunState → Nibble
  | .running => Config.idleFaultOpcode t
  | .halted => Config.idleFaultOpcode t
  | .faulted r => r.opcode

/-- `fault_addr`: the fault record's while faulted, otherwise any value (R120). -/
def RunState.faultAddrPort (t : Nat) : RunState → Nibble
  | .running => Config.idleFaultAddr t
  | .halted => Config.idleFaultAddr t
  | .faulted r => r.addr

/-- The ports as the host sees them during the step that begins in `s` at clock edge number `t` (R6, R111,
R120; log entry 6). -/
def State.ports (rst : Bool) (t : Nat) (s : State) : Ports where
  outValid := s.outFires rst
  outData := s.outData rst t
  halted := s.run.isHalted
  faulted := s.run.isFaulted
  faultOpcode := s.run.faultOpcodePort t
  faultAddr := s.run.faultAddrPort t

/-- What the host observes of a run that has ended: the output stream and the terminal status; nothing while
the core runs (R117). -/
def State.observation (s : State) : Option (List Byte × RunState) :=
  match s.run with
  | .running => none
  | .halted => some (s.out, .halted)
  | .faulted r => some (s.out, .faulted r)

/-- The host's lines: each value of the output stream as an unsigned decimal number (R111). -/
def outputLines (out : List Byte) : List String := out.map fun v => toString v.toNat

/-- The host's process status for a run state: `Halted` is success, 0; `Faulted` is `exitFailureCode`; a run
that has not ended has none (R118, R119). -/
def RunState.exitStatus : RunState → Option Int
  | .running => none
  | .halted => some 0
  | .faulted _ => some Config.exitFailureCode

end Sys2Proof.Machine
end

