-- ==== Sys2Proof/Safety.lean ====
section
/-! DEFINITION. The terms claims about the core are stated in: the invariant, what a fetch leaves, which
states no program can tell apart, and the spellings of literals. -/

namespace Sys2Proof.Machine

/-- Every one of the sixteen cells reads the same in both states (R32). -/
def SameMemory (s t : State) : Prop := ∀ a, a < 16 → Memory.read t.mem a = Memory.read s.mem a

/-- The byte that the next cycle of `s` fetches: the cell at `PC[3:0]` (R34, R80). -/
def State.nextByte (s : State) : Byte := Memory.read s.mem (s.pc.toNat % 16)

/-- That byte is `16 * op + x` (R48). -/
def Fetches (s : State) (op : Nat) (x : Nibble) : Prop := s.nextByte.toNat = 16 * op + x.toNat

/-- MAR and IR after the cycle that began in `s`: the fetch address and the byte there (R22, R23, R80). -/
def FetchedFrom (s t : State) : Prop := t.mar.toNat = s.pc.toNat % 16 ∧ t.ir = s.nextByte

/-- PC went to the next address, 15 wrapping to 0 (R18, R81). -/
def PcAdvanced (s t : State) : Prop := t.pc.toNat = (s.pc.toNat + 1) % 16

/-- The opcode of the byte is one of the seven illegal ones: 0x0 or 0x9 to 0xE (R54). -/
def IllegalByte (b : Byte) : Prop := b.toNat / 16 = 0 ∨ (9 ≤ b.toNat / 16 ∧ b.toNat / 16 ≤ 14)

/-- What a state that stopped at the byte in IR, fetched from MAR, holds in PC (R87, R103). -/
def StoppedAtMar (s : State) : Prop := s.pc.toNat = (s.mar.toNat + 1) % 16

/-- The run state agrees with IR, MAR and PC: `Halted` only at a `hlt`, `Faulted` only at an illegal opcode
with the record R103 gives (R22, R27, R87, R103). -/
def RunStateAgrees (s : State) : Prop :=
  match s.run with
  | .running => True
  | .halted => highNibble s.ir = 0xF#4 ∧ StoppedAtMar s ∧ Memory.read s.mem s.mar.toNat = s.ir
  | .faulted r =>
    r.opcode = highNibble s.ir ∧ r.addr = s.mar ∧ (decodeByte s.ir).WellFormed = false ∧
      StoppedAtMar s ∧ Memory.read s.mem s.mar.toNat = s.ir

/-- The invariant of the core: PC's high nibble is 0 (R16), memory is in its canonical form, and the run
state agrees with the registers. -/
def State.Inv (s : State) : Prop :=
  s.pc.toNat < 16 ∧ Memory.wf s.mem = true ∧ RunStateAgrees s

/-- The states differ at most in IR, MAR and RB, which no program can observe (R25). -/
def SameVisible (s t : State) : Prop :=
  t.pc = s.pc ∧ t.ra = s.ra ∧ t.c = s.c ∧ t.mem = s.mem ∧ t.run = s.run ∧ t.out = s.out

/-- The `(name, offset)` pairs of the `db` bytes among the emissions, in order: where in the image each named
byte stands (R70). -/
def dataOffsets (es : List Emission) : SymbolTable :=
  es.zipIdx.filterMap fun p =>
    match p.1 with
    | .code _ _ => none
    | .data name _ => some (name, p.2)

/-- The mnemonics that take an operand token, spelled out byte by byte, with their control nibbles: R62's
table, written without the assembler's own. -/
def operandSpellings : List (Token × Mnemonic × Nat) :=
  [([0x6C, 0x64, 0x61], .lda, 0x1), ([0x61, 0x64, 0x64], .add, 0x2), ([0x73, 0x75, 0x62], .sub, 0x3),
   ([0x73, 0x74, 0x61], .sta, 0x4), ([0x6A, 0x6D, 0x70], .jmp, 0x6), ([0x6C, 0x64, 0x69], .ldi, 0x7),
   ([0x6A, 0x63], .jc, 0x8)]

/-- `out` and `hlt`, which take no operand token (R62). -/
def plainSpellings : List (Token × Mnemonic × Nat) :=
  [([0x6F, 0x75, 0x74], .out, 0x5), ([0x68, 0x6C, 0x74], .hlt, 0xF)]

/-- `db` (R62). -/
def dbSpelling : Token := [0x64, 0x62]

/-- The token spells none of the ten keywords (R62). -/
def NotAKeyword (t : Token) : Prop :=
  t ≠ dbSpelling ∧ ∀ p ∈ operandSpellings ++ plainSpellings, t ≠ p.1

/-- The spelling of a decimal digit (R72). -/
def decimalSpelling (d : Fin 10) : Byte := BitVec.ofNat 8 (0x30 + d.val)

/-- The spelling of a hexadecimal digit, in upper or lower case (R68). -/
def hexSpelling (d : Fin 16 × Bool) : Byte :=
  if d.1.val < 10 then BitVec.ofNat 8 (0x30 + d.1.val)
  else if d.2 then BitVec.ofNat 8 (0x41 + (d.1.val - 10))
  else BitVec.ofNat 8 (0x61 + (d.1.val - 10))

/-- The number a list of digits spells in base `base`, the most significant first. -/
def digitsValue (base : Nat) (ds : List Nat) : Nat := ds.foldl (fun acc d => base * acc + d) 0

end Sys2Proof.Machine
end

