-- ==== Sys2Proof/Certificates/Slice0/Obligations.lean ====
section
/-! DEFINITION. The statements for the provers. Each docstring names the rule of spec/ it formalises. A
rule that the spec marks [derived] or [decision] is the spec's own inference; a statement resting on one
says so here and is listed with the basis 'derived'. -/

open Sys2Proof Sys2Proof.Machine

/-! ### Encoding -/

/-- Twelve byte lists written out in bits from 95_test_vectors L2-DEC and R48's format, and the empty list, which
holds no instruction since one is exactly one byte (R57). That an illegal row keeps the nibble of its byte is
the model's choice (log entry 9): the vectors say only which opcode is illegal. -/
def Obligations.DecodeOfWrittenOutBytes : Prop :=
  decode [0b00010111#8] = .instr (.lda 7#4) [] ∧ decode [0b00101111#8] = .instr (.add 15#4) [] ∧
  decode [0b00110000#8] = .instr (.sub 0#4) [] ∧ decode [0b01001010#8] = .instr (.sta 10#4) [] ∧
  decode [0b01011100#8] = .instr (.out 12#4) [] ∧ decode [0b01101111#8] = .instr (.jmp 15#4) [] ∧
  decode [0b01110101#8] = .instr (.ldi 5#4) [] ∧ decode [0b10000000#8] = .instr (.jc 0#4) [] ∧
  decode [0b11110000#8] = .instr (.hlt 0#4) [] ∧ decode [0b00001111#8] = .instr (.illegal0 15#4) [] ∧
  decode [0b10010000#8] = .instr (.illegal9 0#4) [] ∧ decode [0b11101111#8] = .instr (.illegalE 15#4) [] ∧
  decode [] = .reject .noByte

/-- The opcode map of R53, complete for all sixteen opcode values, whatever bytes follow, with the low nibble of
R49 as the operand. That `out`, `hlt` and the illegal rows carry that nibble, which they do not read, is the
model's choice (log entry 9). -/
def Obligations.OpcodeMapIsComplete : Prop :=
  ∀ (b : Byte) (rest : List Byte),
    (b.toNat / 16 = 0x0 → decode (b :: rest) = .instr (.illegal0 (lowNibble b)) rest) ∧
    (b.toNat / 16 = 0x1 → decode (b :: rest) = .instr (.lda (lowNibble b)) rest) ∧
    (b.toNat / 16 = 0x2 → decode (b :: rest) = .instr (.add (lowNibble b)) rest) ∧
    (b.toNat / 16 = 0x3 → decode (b :: rest) = .instr (.sub (lowNibble b)) rest) ∧
    (b.toNat / 16 = 0x4 → decode (b :: rest) = .instr (.sta (lowNibble b)) rest) ∧
    (b.toNat / 16 = 0x5 → decode (b :: rest) = .instr (.out (lowNibble b)) rest) ∧
    (b.toNat / 16 = 0x6 → decode (b :: rest) = .instr (.jmp (lowNibble b)) rest) ∧
    (b.toNat / 16 = 0x7 → decode (b :: rest) = .instr (.ldi (lowNibble b)) rest) ∧
    (b.toNat / 16 = 0x8 → decode (b :: rest) = .instr (.jc (lowNibble b)) rest) ∧
    (b.toNat / 16 = 0x9 → decode (b :: rest) = .instr (.illegal9 (lowNibble b)) rest) ∧
    (b.toNat / 16 = 0xA → decode (b :: rest) = .instr (.illegalA (lowNibble b)) rest) ∧
    (b.toNat / 16 = 0xB → decode (b :: rest) = .instr (.illegalB (lowNibble b)) rest) ∧
    (b.toNat / 16 = 0xC → decode (b :: rest) = .instr (.illegalC (lowNibble b)) rest) ∧
    (b.toNat / 16 = 0xD → decode (b :: rest) = .instr (.illegalD (lowNibble b)) rest) ∧
    (b.toNat / 16 = 0xE → decode (b :: rest) = .instr (.illegalE (lowNibble b)) rest) ∧
    (b.toNat / 16 = 0xF → decode (b :: rest) = .instr (.hlt (lowNibble b)) rest) ∧
    b.toNat / 16 < 16

/-- R59, which the spec marks [derived]: the encoder is `op * 16 + x`, decoding what was encoded gives it
back for every instruction and operand, and encoding what was decoded gives the byte back. It holds for the
illegal rows too, since they keep their operand nibble (log entry 9). -/
def Obligations.EncoderAndDecoderAreInverse : Prop :=
  (∀ i : Instr, (encodeByte i).toNat = i.opcode.toNat * 16 + i.operand.toNat) ∧
  (∀ (i : Instr) (rest : List Byte), decode (encode i ++ rest) = .instr i rest) ∧
  (∀ (b : Byte) (bs rest : List Byte) (i : Instr),
    decode (b :: bs) = .instr i rest → encode i = [b] ∧ rest = bs) ∧
  (∀ b : Byte, (decodeByte b).opcode = highNibble b ∧ (decodeByte b).operand = lowNibble b ∧
    ((decodeByte b).WellFormed = false ↔ IllegalByte b))

/-! ### The cycle -/

/-- R80 (fetch) and R49, R83 (decode IR, dispatch on it): a running core's step is the execute phase of the
instruction that the byte at PC[3:0] decodes to, on the state after fetch and increment; and what that state
is, the increment being R81. -/
def Obligations.StepRunsTheDecodedInstruction : Prop :=
  ∀ (s : State) (i : Instr) (rest : List Byte),
    s.run = .running → decode [s.nextByte] = .instr i rest →
    step s = exec i s.fetchIncrement ∧
    s.fetchIncrement.mar.toNat = s.pc.toNat % 16 ∧ s.fetchIncrement.ir = s.nextByte ∧
    s.fetchIncrement.pc.toNat = (s.pc.toNat + 1) % 16 ∧
    s.fetchIncrement.ra = s.ra ∧ s.fetchIncrement.rb = s.rb ∧ s.fetchIncrement.c = s.c ∧
    s.fetchIncrement.mem = s.mem ∧ s.fetchIncrement.run = s.run ∧ s.fetchIncrement.out = s.out

/-- No step and no execute phase stops in a fault or a refusal of the model: the one exception of the core is
a next state (R101, R107 [derived]; log entry 1 for the stopped core). -/
def Obligations.EveryStepAnswersANextState : Prop :=
  (∀ s : State, ∃ t, step s = .next t) ∧ (∀ (i : Instr) (s : State), ∃ t, exec i s = .next t)

/-- No execute phase writes MAR or IR (R22 [derived], R23, decision D4). -/
def Obligations.ExecuteLeavesFetchRegisters : Prop :=
  ∀ (i : Instr) (s : State), ∃ t, exec i s = .next t ∧ t.mar = s.mar ∧ t.ir = s.ir

/-- After every cycle MAR holds the fetch address and IR the byte fetched, stopping cycles included (R22
[derived], R23 decisions D3 and D4). -/
def Obligations.CycleLeavesFetchAddressInMar : Prop :=
  ∀ s : State, s.run = .running → ∃ t, step s = .next t ∧ FetchedFrom s t

/-- R18 (the spec marks it [derived], with decision D5 for `hlt` and the fault): where each instruction leaves
PC. -/
def Obligations.PcAfterEachInstruction : Prop :=
  ∀ s : State, s.run = .running → ∃ t, step s = .next t ∧
    t.pc.toNat =
      (if s.nextByte.toNat / 16 = 0x6 then s.nextByte.toNat % 16
       else if s.nextByte.toNat / 16 = 0x8 ∧ s.c = true then s.nextByte.toNat % 16
       else (s.pc.toNat + 1) % 16)

/-- R19: every address is a valid fetch address, and sequential execution past 15 continues at 0 without a
fault: any defined byte but `hlt` and a taken jump, fetched from address 15, leaves the core running at 0. -/
def Obligations.PcWrapsFromFifteenToZero : Prop :=
  (∀ s : State, s.run = .running → ∃ t, step s = .next t ∧
    (¬ IllegalByte s.nextByte → t.run.isFaulted = false)) ∧
  (∀ s : State, s.run = .running → s.pc.toNat % 16 = 15 → ¬ IllegalByte s.nextByte →
    s.nextByte.toNat / 16 ≠ 0xF → s.nextByte.toNat / 16 ≠ 0x6 →
    ¬ (s.nextByte.toNat / 16 = 0x8 ∧ s.c = true) →
    ∃ t, step s = .next t ∧ t.pc.toNat = 0 ∧ t.run = .running)

/-- R16 ([derived]): every cycle writes a value below 16 to PC, only PC's low four bits are meaningful, and a
PC below 16 stays so through any number of steps. -/
def Obligations.PcStaysBelowSixteen : Prop :=
  (∀ s : State, s.run = .running → ∃ t, step s = .next t ∧ t.pc.toNat < 16) ∧
  (∀ (s : State) (v : Byte), s.run = .running → lowNibble v = lowNibble s.pc →
    step { s with pc := v } = step s) ∧
  (∀ (k : Nat) (s t : State), s.pc.toNat < 16 → Host.Core.run Sys2Proof.core k s = .next t →
    t.pc.toNat < 16)

/-- R27 (decision D11): the run state after a cycle is fixed by the byte fetched; nothing but reset leaves
`Halted` or `Faulted`. That an edge of a stopped core without reset answers a next state is the model's reading
(log entry 1); the edge with reset is R121 and R122 (decision D12, log entry 14). -/
def Obligations.RunStateTransitions : Prop :=
  (∀ s : State, s.run = .running → ∃ t, step s = .next t ∧
    (IllegalByte s.nextByte → t.run = .faulted ⟨highNibble s.nextByte, lowNibble s.pc⟩) ∧
    (s.nextByte.toNat / 16 = 0xF → t.run = .halted) ∧
    (¬ IllegalByte s.nextByte → s.nextByte.toNat / 16 ≠ 0xF → t.run = .running)) ∧
  (∀ (s : State) (image : List Byte), s.run ≠ .running →
    (∃ t, clockEdge false image s = .next t ∧ t.run = s.run) ∧
    (∃ t, clockEdge true image s = .next t ∧ t.run = .running))

/-- R28 and R116: a stopped core keeps its whole state through any number of steps and emits nothing. That a
step of a stopped core answers the same state, and not a stop of the model, is the model's choice (log
entry 1). -/
def Obligations.StoppedCoreKeepsItsState : Prop :=
  ∀ (k t : Nat) (s : State), s.run ≠ .running →
    Host.Core.run Sys2Proof.core k s = .next s ∧ (s.ports false t).outValid = false

/-! ### Data transfer -/

/-- R88, whole. MAR and IR: `ExecuteLeavesFetchRegisters`, `CycleLeavesFetchAddressInMar`. -/
def Obligations.LdaLoadsTheAddressedByte : Prop :=
  (∀ (x : Nibble) (s : State), ∃ t, exec (.lda x) s = .next t ∧
    t.ra = Memory.read s.mem (operandAddress x) ∧
    t.pc = s.pc ∧ t.rb = s.rb ∧ t.c = s.c ∧ t.run = s.run ∧ t.out = s.out ∧ SameMemory s t) ∧
  (∀ (x : Nibble) (s : State), s.run = .running → Fetches s 0x1 x → ∃ t, step s = .next t ∧
    t.ra = Memory.read s.mem x.toNat ∧ PcAdvanced s t ∧
    t.rb = s.rb ∧ t.c = s.c ∧ t.run = .running ∧ t.out = s.out ∧ SameMemory s t)

/-- R89, whole: the cell at the operand address becomes RA and no other cell changes; every address is
writable. MAR and IR: `ExecuteLeavesFetchRegisters`, `CycleLeavesFetchAddressInMar`; the later fetch of the
stored byte: `StoreIsSeenByTheNextFetch`. -/
def Obligations.StaStoresTheAccumulator : Prop :=
  (∀ (x : Nibble) (s : State), ∃ t, exec (.sta x) s = .next t ∧
    (∀ a, a < 16 →
      Memory.read t.mem a = if a = operandAddress x then s.ra else Memory.read s.mem a) ∧
    t.pc = s.pc ∧ t.ra = s.ra ∧ t.rb = s.rb ∧ t.c = s.c ∧ t.run = s.run ∧ t.out = s.out) ∧
  (∀ (x : Nibble) (s : State), s.run = .running → Fetches s 0x4 x → ∃ t, step s = .next t ∧
    (∀ a, a < 16 → Memory.read t.mem a = if a = x.toNat then s.ra else Memory.read s.mem a) ∧
    t.ir = s.nextByte ∧ PcAdvanced s t ∧
    t.ra = s.ra ∧ t.rb = s.rb ∧ t.c = s.c ∧ t.run = .running ∧ t.out = s.out)

/-- R90, whole: the immediate is zero-extended, never sign-extended. MAR and IR:
`ExecuteLeavesFetchRegisters`, `CycleLeavesFetchAddressInMar`. -/
def Obligations.LdiLoadsTheImmediate : Prop :=
  (∀ (x : Nibble) (s : State), ∃ t, exec (.ldi x) s = .next t ∧
    t.ra.toNat = x.toNat ∧
    t.pc = s.pc ∧ t.rb = s.rb ∧ t.c = s.c ∧ t.run = s.run ∧ t.out = s.out ∧ SameMemory s t) ∧
  (∀ (x : Nibble) (s : State), s.run = .running → Fetches s 0x7 x → ∃ t, step s = .next t ∧
    t.ra.toNat = x.toNat ∧ PcAdvanced s t ∧
    t.rb = s.rb ∧ t.c = s.c ∧ t.run = .running ∧ t.out = s.out ∧ SameMemory s t)

/-! ### Arithmetic -/

/-- R91: the two operations of the ALU over unbounded integers, and the carry in both its forms. -/
def Obligations.AluOperations : Prop :=
  ∀ p q : Byte,
    (add8 p q).toNat = (p.toNat + q.toNat) % 256 ∧
    (carryOut p q = true ↔ 256 ≤ p.toNat + q.toNat) ∧
    (carryOut p q = true ↔ q.toNat > 255 - p.toNat) ∧
    ((sub8 p q).toNat : Int) = ((p.toNat : Int) - (q.toNat : Int)) % 256

/-- R92, whole: RB gets the operand, RA the sum mod 256, C the carry of the values before the instruction,
with no carry-in. MAR and IR: `ExecuteLeavesFetchRegisters`, `CycleLeavesFetchAddressInMar`. -/
def Obligations.AddSumsAndSetsCarry : Prop :=
  (∀ (x : Nibble) (s : State), ∃ t, exec (.add x) s = .next t ∧
    t.rb = Memory.read s.mem (operandAddress x) ∧
    t.ra.toNat = (s.ra.toNat + (Memory.read s.mem (operandAddress x)).toNat) % 256 ∧
    t.c = decide (256 ≤ s.ra.toNat + (Memory.read s.mem (operandAddress x)).toNat) ∧
    t.pc = s.pc ∧ t.run = s.run ∧ t.out = s.out ∧ SameMemory s t) ∧
  (∀ (x : Nibble) (s : State), s.run = .running → Fetches s 0x2 x → ∃ t, step s = .next t ∧
    t.rb = Memory.read s.mem x.toNat ∧
    t.ra.toNat = (s.ra.toNat + (Memory.read s.mem x.toNat).toNat) % 256 ∧
    t.c = decide (256 ≤ s.ra.toNat + (Memory.read s.mem x.toNat).toNat) ∧
    PcAdvanced s t ∧ t.run = .running ∧ t.out = s.out ∧ SameMemory s t)

/-- R93 (decision D8: C keeps its value). MAR and IR: `ExecuteLeavesFetchRegisters`,
`CycleLeavesFetchAddressInMar`. -/
def Obligations.SubWrapsAndKeepsCarry : Prop :=
  (∀ (x : Nibble) (s : State), ∃ t, exec (.sub x) s = .next t ∧
    t.rb = Memory.read s.mem (operandAddress x) ∧
    (t.ra.toNat : Int) =
      ((s.ra.toNat : Int) - ((Memory.read s.mem (operandAddress x)).toNat : Int)) % 256 ∧
    t.c = s.c ∧ t.pc = s.pc ∧ t.run = s.run ∧ t.out = s.out ∧ SameMemory s t) ∧
  (∀ (x : Nibble) (s : State), s.run = .running → Fetches s 0x3 x → ∃ t, step s = .next t ∧
    t.rb = Memory.read s.mem x.toNat ∧
    (t.ra.toNat : Int) =
      ((s.ra.toNat : Int) - ((Memory.read s.mem x.toNat).toNat : Int)) % 256 ∧
    t.c = s.c ∧ PcAdvanced s t ∧ t.run = .running ∧ t.out = s.out ∧ SameMemory s t)

/-- R94 ([derived]): read as two's-complement numbers `add` and `sub` give the same bit patterns, and the
carry of `add` is the carry-out of bit 7. -/
def Obligations.ArithmeticReadAsSigned : Prop :=
  ∀ (x : Nibble) (s : State), ∃ t u, exec (.add x) s = .next t ∧ exec (.sub x) s = .next u ∧
    t.ra.toInt = (s.ra.toInt + (Memory.read s.mem (operandAddress x)).toInt).bmod 256 ∧
    u.ra.toInt = (s.ra.toInt - (Memory.read s.mem (operandAddress x)).toInt).bmod 256 ∧
    t.c = (s.ra.setWidth 9 + (Memory.read s.mem (operandAddress x)).setWidth 9).getLsbD 8

/-- R20 (decision D8 for `sub`): C is written by `add` alone and read by `jc` alone; 0 at reset. -/
def Obligations.CarryIsWrittenByAddAndReadByJc : Prop :=
  (∀ s : State, s.run = .running → ∃ t, step s = .next t ∧
    t.c = (if s.nextByte.toNat / 16 = 0x2 then
      decide (256 ≤ s.ra.toNat + (Memory.read s.mem (lowNibble s.nextByte).toNat).toNat) else s.c)) ∧
  (∀ (s : State) (v : Bool), s.run = .running → s.nextByte.toNat / 16 ≠ 0x8 →
    ∃ t u, step s = .next t ∧ step { s with c := v } = .next u ∧ u = { t with c := u.c }) ∧
  (∀ image : List Byte, (State.resetWith image).c = false)

/-- R14 ([derived]): RB is written by `add` and `sub` alone, with the operand they load, and the value it held
before a cycle decides nothing else. -/
def Obligations.RbIsWrittenByAddAndSubAndNeverRead : Prop :=
  (∀ s : State, s.run = .running → ∃ t, step s = .next t ∧
    t.rb = (if s.nextByte.toNat / 16 = 0x2 ∨ s.nextByte.toNat / 16 = 0x3 then
      Memory.read s.mem (lowNibble s.nextByte).toNat else s.rb)) ∧
  (∀ (s : State) (v : Byte), s.run = .running →
    ∃ t u, step s = .next t ∧ step { s with rb := v } = .next u ∧ u = { t with rb := u.rb } ∧
      (s.nextByte.toNat / 16 = 0x2 ∨ s.nextByte.toNat / 16 = 0x3 → u = t))

/-! ### Control transfer -/

/-- R96, whole. MAR and IR: `ExecuteLeavesFetchRegisters`, `CycleLeavesFetchAddressInMar`. -/
def Obligations.JmpGoesToItsTarget : Prop :=
  (∀ (x : Nibble) (s : State), ∃ t, exec (.jmp x) s = .next t ∧ t.pc.toNat = x.toNat ∧
    t.ra = s.ra ∧ t.rb = s.rb ∧ t.c = s.c ∧ t.run = s.run ∧ t.out = s.out ∧ SameMemory s t) ∧
  (∀ (x : Nibble) (s : State), s.run = .running → Fetches s 0x6 x → ∃ t, step s = .next t ∧
    t.pc.toNat = x.toNat ∧
    t.ra = s.ra ∧ t.rb = s.rb ∧ t.c = s.c ∧ t.run = .running ∧ t.out = s.out ∧ SameMemory s t)

/-- R97, whole: taken with C = 1, otherwise no more than the increment; C is not cleared. MAR and IR:
`ExecuteLeavesFetchRegisters`, `CycleLeavesFetchAddressInMar`. -/
def Obligations.JcJumpsWhenCarryIsSet : Prop :=
  (∀ (x : Nibble) (s : State), ∃ t, exec (.jc x) s = .next t ∧
    t.pc.toNat = (if s.c = true then x.toNat else s.pc.toNat) ∧
    t.ra = s.ra ∧ t.rb = s.rb ∧ t.c = s.c ∧ t.run = s.run ∧ t.out = s.out ∧ SameMemory s t) ∧
  (∀ (x : Nibble) (s : State), s.run = .running → Fetches s 0x8 x → ∃ t, step s = .next t ∧
    t.pc.toNat = (if s.c = true then x.toNat else (s.pc.toNat + 1) % 16) ∧
    t.ra = s.ra ∧ t.rb = s.rb ∧ t.c = s.c ∧ t.run = .running ∧ t.out = s.out ∧ SameMemory s t)

/-- A `jmp` to its own address never stops, emits nothing and changes no cell (R96's corner case; R118,
decision D28). -/
def Obligations.JumpToItselfRunsForever : Prop :=
  ∀ (k : Nat) (s : State), s.run = .running → Fetches s 0x6 (lowNibble s.pc) →
    ∃ t, Host.Core.run Sys2Proof.core k s = .next t ∧ t.run = .running ∧ t.out = s.out ∧
      t.mem = s.mem ∧ t.ra = s.ra ∧ t.rb = s.rb ∧ t.c = s.c

/-! ### Output and halt -/

/-- R99 (decision D10: the core emits the 8-bit value; D2: the port), any operand nibble (R55, decision D9).
MAR and IR: `ExecuteLeavesFetchRegisters`, `CycleLeavesFetchAddressInMar`. -/
def Obligations.OutEmitsTheAccumulator : Prop :=
  (∀ (n : Nibble) (s : State), ∃ t, exec (.out n) s = .next t ∧ t.out = s.out ++ [s.ra] ∧
    t.pc = s.pc ∧ t.ra = s.ra ∧ t.rb = s.rb ∧ t.c = s.c ∧ t.run = s.run ∧ SameMemory s t) ∧
  (∀ (n : Nibble) (s : State) (k : Nat), s.run = .running → Fetches s 0x5 n → ∃ t, step s = .next t ∧
    t.out = s.out ++ [s.ra] ∧
    (s.ports false k).outValid = true ∧ (s.ports false k).outData = s.ra ∧
    PcAdvanced s t ∧ t.ra = s.ra ∧ t.rb = s.rb ∧ t.c = s.c ∧ t.run = .running ∧ SameMemory s t)

/-- R100 (decision D5: PC keeps the incremented value), any operand nibble (R55, decision D9). MAR and IR:
`ExecuteLeavesFetchRegisters`, `CycleLeavesFetchAddressInMar`. -/
def Obligations.HltHalts : Prop :=
  (∀ (n : Nibble) (s : State), ∃ t, exec (.hlt n) s = .next t ∧ t.run = .halted ∧
    t.pc = s.pc ∧ t.ra = s.ra ∧ t.rb = s.rb ∧ t.c = s.c ∧ t.out = s.out ∧ SameMemory s t) ∧
  (∀ (n : Nibble) (s : State), s.run = .running → Fetches s 0xF n → ∃ t, step s = .next t ∧
    t.run = .halted ∧ t.run.exitStatus = some 0 ∧ PcAdvanced s t ∧
    t.ra = s.ra ∧ t.rb = s.rb ∧ t.c = s.c ∧ t.out = s.out ∧ SameMemory s t)

/-- The output stream grows by exactly RA in a cycle that executes `out`, and by nothing in any other; over any
number of steps it only grows at its end; empty at reset (R29, decision D10). -/
def Obligations.OutputStreamGrowsOnlyByOut : Prop :=
  (∀ s : State, s.run = .running → ∃ t, step s = .next t ∧
    t.out = (if s.nextByte.toNat / 16 = 0x5 then s.out ++ [s.ra] else s.out)) ∧
  (∀ (k : Nat) (s t : State), Host.Core.run Sys2Proof.core k s = .next t →
    ∃ more, t.out = s.out ++ more ∧ more.length ≤ k) ∧
  (∀ image : List Byte, (State.resetWith image).out = [])

/-! ### The illegal-instruction fault -/

/-- R102, whole: each of the seven illegal opcodes sets the run state to `Faulted(op, MAR)` and writes nothing
else, whatever the operand nibble; a defined instruction never raises it. -/
def Obligations.IllegalOpcodesRaiseTheFault : Prop :=
  (∀ (n : Nibble) (s : State),
    ∀ p ∈ [(Instr.illegal0 n, 0x0#4), (.illegal9 n, 0x9#4), (.illegalA n, 0xA#4), (.illegalB n, 0xB#4),
        (.illegalC n, 0xC#4), (.illegalD n, 0xD#4), (.illegalE n, 0xE#4)],
      ∃ t, exec p.1 s = .next t ∧ t.run = .faulted ⟨p.2, s.mar⟩ ∧
        t.pc = s.pc ∧ t.ir = s.ir ∧ t.mar = s.mar ∧ t.ra = s.ra ∧ t.rb = s.rb ∧ t.c = s.c ∧
        t.out = s.out ∧ SameMemory s t) ∧
  (∀ s : State, s.run = .running → IllegalByte s.nextByte →
    ∃ t, step s = .next t ∧ t.run = .faulted ⟨highNibble s.nextByte, lowNibble s.pc⟩ ∧
      t.run ≠ .halted ∧
      t.ra = s.ra ∧ t.rb = s.rb ∧ t.c = s.c ∧ t.out = s.out ∧ SameMemory s t) ∧
  (∀ (i : Instr) (s t : State) (r : FaultRecord), i.WellFormed = true → exec i s = .next t →
    t.run = .faulted r → s.run = .faulted r)

/-- The fault record and the registers when the core has stopped (R87, R103 decision D6, R104 [derived];
decision D5 for PC): the address is the fetch address, which is PC minus 1 mod 16 afterwards, the offending
byte stays in IR, and everything else is as the previous instruction left it. The core then stays as it is
(R105, decision D11); that its further steps answer that same state is the model's reading (log entry 1). -/
def Obligations.FaultIsPreciseAndRecorded : Prop :=
  ∀ s : State, s.run = .running → IllegalByte s.nextByte →
    ∃ t r, step s = .next t ∧ t.run = .faulted r ∧
      r.opcode = highNibble s.nextByte ∧ r.addr.toNat = s.pc.toNat % 16 ∧ r.addr = t.mar ∧
      r.addr.toNat = (t.pc.toNat + 15) % 16 ∧ FetchedFrom s t ∧ PcAdvanced s t ∧
      t.ra = s.ra ∧ t.rb = s.rb ∧ t.c = s.c ∧ t.mem = s.mem ∧ t.out = s.out ∧
      (∀ k, Host.Core.run Sys2Proof.core k t = .next t)

/-! ### Memory -/

/-- R33 ([derived]): a cycle writes at most the cell that a `sta` names, and reads no cell but the fetched one
and the operand of `lda`, `add` and `sub`: changing any other cell changes nothing else. -/
def Obligations.MemoryAccessesOfACycle : Prop :=
  (∀ s : State, s.run = .running → ∃ t, step s = .next t ∧
    ∀ a, a < 16 → Memory.read t.mem a =
      if s.nextByte.toNat / 16 = 0x4 ∧ a = (lowNibble s.nextByte).toNat then s.ra
      else Memory.read s.mem a) ∧
  (∀ (s : State) (a : Nat) (v : Byte), s.run = .running → a < 16 → a ≠ s.pc.toNat % 16 →
    (1 ≤ s.nextByte.toNat / 16 ∧ s.nextByte.toNat / 16 ≤ 3 → a ≠ (lowNibble s.nextByte).toNat) →
    ∃ t u, step s = .next t ∧ step { s with mem := Memory.write s.mem a v } = .next u ∧
      u = { t with mem := u.mem } ∧
      ∀ b, b < 16 → b ≠ a → Memory.read u.mem b = Memory.read t.mem b)

/-- R44 ([derived]) and R126: a `sta` does not change the executing instruction, and every later fetch of the
stored cell, the very next one too, runs the byte stored. -/
def Obligations.StoreIsSeenByTheNextFetch : Prop :=
  ∀ (s : State) (x : Nibble), s.run = .running → Fetches s 0x4 x →
    ∃ t, step s = .next t ∧ t.ir = s.nextByte ∧
      (x.toNat = (s.pc.toNat + 1) % 16 →
        t.nextByte = s.ra ∧ step t = exec (decodeByte s.ra) t.fetchIncrement) ∧
      (∀ u : State, u.run = .running → u.pc.toNat % 16 = x.toNat →
        Memory.read u.mem x.toNat = Memory.read t.mem x.toNat →
        step u = exec (decodeByte s.ra) u.fetchIncrement)

/-- Two memories in the canonical form that read the same at all sixteen addresses are the same data (log
entry 3, the model's choice of form). -/
def Obligations.CanonicalMemoryIsItsBytes : Prop :=
  ∀ m m' : Memory, Memory.wf m = true → Memory.wf m' = true →
    (∀ a, a < 16 → Memory.read m a = Memory.read m' a) → m = m'

/-! ### Reset -/

/-- R30, R38 and R121: every register, the run state and the output stream at reset, and each cell the image's
byte, or 0 past the image; bytes past 16 are discarded. -/
def Obligations.ResetLoadsTheImage : Prop :=
  ∀ image : List Byte,
    (State.resetWith image).run = .running ∧ (State.resetWith image).pc = 0#8 ∧
    (State.resetWith image).ir = 0#8 ∧ (State.resetWith image).mar = 0#4 ∧
    (State.resetWith image).ra = 0#8 ∧ (State.resetWith image).rb = 0#8 ∧
    (State.resetWith image).c = false ∧ (State.resetWith image).out = [] ∧
    ∀ a, a < 16 → Memory.read (State.resetWith image).mem a = image.getD a 0#8

/-- R122 (decision D12): with `rst` asserted an edge sets the whole state to the initial state with the image,
whatever the state was, and without it the edge is one step; bytes of the image past 16 make no difference;
`State.reset` is the reset with the empty image (log entry 4). -/
def Obligations.ResetInputReloadsEverything : Prop :=
  (∀ (image : List Byte) (s : State),
    clockEdge true image s = .next (State.resetWith image) ∧ clockEdge false image s = step s) ∧
  (∀ image extra : List Byte, image.length = 16 →
    State.resetWith (image ++ extra) = State.resetWith image) ∧
  State.resetWith [] = State.reset

/-! ### Invariants -/

/-- The invariant holds right after reset, with every image: PC is 0 (R16, R30), the core runs (R30), and memory
is in its canonical form, which is the model's choice (log entry 3). `State.reset` as the reset with the empty
image is the model's choice too (log entry 4). -/
def Obligations.InvariantHoldsAtReset : Prop :=
  State.reset.Inv ∧ ∀ image : List Byte, (State.resetWith image).Inv

/-- Every clock edge keeps the invariant: PC below 16 (R16), memory in its canonical form (log entry 3), and
the run state in agreement with IR, MAR, PC and memory (R22, R87, R103). -/
def Obligations.ClockEdgeKeepsTheInvariant : Prop :=
  ∀ (s t : State), s.Inv →
    (step s = .next t → t.Inv) ∧
    (∀ (rst : Bool) (image : List Byte), clockEdge rst image s = .next t → t.Inv)

/-- R25 ([derived]): states that differ only in IR, MAR and RB run alike for any number of steps, in everything
a program or the host can observe. -/
def Obligations.IrMarAndRbAreUnobservable : Prop :=
  ∀ (k : Nat) (s s' t : State), SameVisible s s' → Host.Core.run Sys2Proof.core k s = .next t →
    ∃ t', Host.Core.run Sys2Proof.core k s' = .next t' ∧ SameVisible t t'

/-! ### Ports and host -/

/-- R120 and R111 (decision D2): `halted` and `faulted` tell the run state, the fault ports hold the record
while faulted, `out_valid` pulses exactly in a running step that executes `out`, and the output stream is
what the port presented. -/
def Obligations.PortsReportOutputAndStatus : Prop :=
  ∀ (s : State) (k : Nat),
    ((s.ports false k).halted = true ↔ s.run = .halted) ∧
    ((s.ports false k).faulted = true ↔ ∃ r, s.run = .faulted r) ∧
    (∀ r, s.run = .faulted r →
      (s.ports false k).faultOpcode = r.opcode ∧ (s.ports false k).faultAddr = r.addr) ∧
    ((s.ports false k).outValid = true ↔ s.run = .running ∧ s.nextByte.toNat / 16 = 0x5) ∧
    (s.ports true k).outValid = false ∧
    (∀ t, step s = .next t → t.out =
      if (s.ports false k).outValid = true then s.out ++ [(s.ports false k).outData] else s.out)

/-- R117 and R119 (decisions D14, D25): what the host reads off a run that ended, and its exit status: 0 after
`hlt`, one and the same negative number after a fault, which number being open (log entry 7). The assembler's
exit status on every kind of error is nonzero (R60, R75), which number being open (log entry 8). -/
def Obligations.ExitStatusOfARun : Prop :=
  (∀ s : State, s.run = .halted →
    s.observation = some (s.out, .halted) ∧ s.run.exitStatus = some 0) ∧
  (∃ e : Int, e < 0 ∧ ∀ (s : State) (r : FaultRecord), s.run = .faulted r →
    s.observation = some (s.out, .faulted r) ∧ s.run.exitStatus = some e) ∧
  (∀ s : State, s.run = .running → s.observation = none ∧ s.run.exitStatus = none) ∧
  (∀ e : AsmError, e.exitStatus ≠ 0)

/-! ### The assembler -/

/-- R61 (decision D17): tokens are the maximal runs between separators; the empty text has none, so adjacent,
leading and trailing separators give no token. -/
def Obligations.TokensAreMaximalRuns : Prop :=
  (∀ b : Byte, isSeparator b = true ↔ b.toNat ∈ [0x00, 0x09, 0x0A, 0x0B, 0x0C, 0x0D, 0x20]) ∧
  tokenize [] = [] ∧
  (∀ (src : List Byte), ∀ t ∈ tokenize src, t ≠ [] ∧ ∀ b ∈ t, isSeparator b = false) ∧
  (∀ src : List Byte, src ≠ [] → (∀ b ∈ src, isSeparator b = false) → tokenize src = [src]) ∧
  (∀ (before after : List Byte) (b : Byte), isSeparator b = true →
    tokenize (before ++ b :: after) = tokenize before ++ tokenize after)

/-- R70 ([derived]): the symbol table of pass one is exactly the list of the `db` bytes' names with the offsets
at which pass two emits them. The list of emissions is the model's view of what pass two emits (log entry
10). -/
def Obligations.PassOneOffsetsAreEmissionOffsets : Prop :=
  ∀ (mode : SymbolMatch) (ts : List Token) (table : SymbolTable) (es : List Emission),
    passOne 0 [] ts = .ok table → passTwo mode table 0 ts = .ok es → table = dataOffsets es

/-- Once pass one has accepted the tokens, pass two never lacks one (R63 decision D24, R66, R67). -/
def Obligations.PassTwoNeverLacksATokenAfterPassOne : Prop :=
  ∀ (mode : SymbolMatch) (ts : List Token) (table table' : SymbolTable) (off : Nat),
    passOne 0 [] ts = .ok table → passTwo mode table' off ts ≠ .error .missingOperand

/-- R76: every image decodes back, byte for byte, to the opcode and operand the assembler intended. What it
intended is read off the source: each instruction emission stems from the mnemonic's spelling in the token
sequence, with the control nibble of R62 (decision D16) and the operand that the token after it resolves to
(R67), or 0 for `out` and `hlt` (R71); each data emission stems from a `db`, its name and its value (R72). The
instruction is a defined one in its canonical encoding (R55). The list of emissions is the model's view of pass
two (log entry 10). -/
def Obligations.AssembledCodeDecodesBack : Prop :=
  ∀ (mode : SymbolMatch) (src : List Byte) (image : List Byte), assemble mode src = .ok image →
    ∃ table es, passOne 0 [] (tokenize src) = .ok table ∧
      passTwo mode table 0 (tokenize src) = .ok es ∧ image = es.map Emission.byte ∧
      (∀ (k : Nat) (m : Mnemonic) (x : Nibble), es[k]? = some (.code m x) →
        (∃ b, image[k]? = some b ∧ decode [b] = .instr (m.toInstr x) [] ∧
          (m.toInstr x).opcode = m.control ∧ (m.toInstr x).operand = x ∧
          (m.toInstr x).WellFormed = true ∧ (m.toInstr x).Canonical = true) ∧
        ((∃ p ∈ operandSpellings, ∃ before operand after, p.2.1 = m ∧ m.control.toNat = p.2.2 ∧
            tokenize src = before ++ p.1 :: operand :: after ∧
            resolveOperand mode table operand = .ok x) ∨
          (∃ p ∈ plainSpellings, p.2.1 = m ∧ m.control.toNat = p.2.2 ∧ p.1 ∈ tokenize src ∧ x = 0#4))) ∧
      (∀ (k : Nat) (name : Token) (v : Byte), es[k]? = some (.data name v) →
        ∃ before value after, tokenize src = before ++ dbSpelling :: name :: value :: after ∧
          decimalByte value = some v)

/-- R74 (decision D23): an image has at most 16 bytes, an emission at 16 or beyond and a reference resolved to
16 or beyond are over-capacity errors, and a reference below 16 is its offset. -/
def Obligations.OverCapacityIsAnError : Prop :=
  (∀ (mode : SymbolMatch) (src image : List Byte), assemble mode src = .ok image → image.length ≤ 16) ∧
  (∀ (mode : SymbolMatch) (table : SymbolTable) (t name : Token) (off : Nat),
    isReference t = true → referenceName t = some name → lookupName mode name table = some off →
    (16 ≤ off → resolveOperand mode table t = .error .overCapacity) ∧
    (off < 16 → ∃ x : Nibble, resolveOperand mode table t = .ok x ∧ x.toNat = off)) ∧
  (∀ (off : Nat) (e : Emission) (rest : AsmResult (List Emission)), 16 ≤ off →
    emitAt off e rest = .error .overCapacity)

/-- R64 and R65 (decision D19): the lookup gives the offset of the last matching entry, in either mode; with no
match the reference is undefined. -/
def Obligations.LastMatchingNameWins : Prop :=
  (∀ (mode : SymbolMatch) (r : Token) (table : SymbolTable) (off : Nat),
    lookupName mode r table = some off ↔
      ∃ before n after, table = before ++ (n, off) :: after ∧ mode.holds n r = true ∧
        ∀ p ∈ after, mode.holds p.1 r = false) ∧
  (∀ (mode : SymbolMatch) (table : SymbolTable) (t r : Token), isReference t = true →
    referenceName t = some r → (∀ p ∈ table, mode.holds p.1 r = false) →
    resolveOperand mode table t = .error .undefinedReference) ∧
  (∀ n r : Token, SymbolMatch.exact.holds n r = true ↔ n = r) ∧
  (∀ n r : Token, SymbolMatch.byPrefix.holds n r = true ↔ ∃ more, r = n ++ more)

/-- R67 (decision D20): a token that begins with `[` names what stands between it and a `]` that is its last
byte, which must not be empty; any other is malformed. -/
def Obligations.ReferenceFormIsChecked : Prop :=
  (∀ name : Token, name ≠ [] →
    isReference (0x5B#8 :: (name ++ [0x5D#8])) = true ∧
    referenceName (0x5B#8 :: (name ++ [0x5D#8])) = some name) ∧
  (∀ (mode : SymbolMatch) (table : SymbolTable) (t : Token), isReference t = true →
    (∀ name : Token, name ≠ [] → t ≠ 0x5B#8 :: (name ++ [0x5D#8])) →
    resolveOperand mode table t = .error .malformedReference)

/-- R68 (decision D21): the operand literals are exactly an optional `0x` or `0X` and one or more hexadecimal
digits of either case, and the operand is the low four bits of the number they spell; any other operand token
that does not begin with `[` is a bad literal. -/
def Obligations.HexLiteralsSpellTheirLowNibble : Prop :=
  (∀ (t : Token) (x : Nibble), hexNibble t = some x ↔
    ∃ mark ∈ [[], [0x30#8, 0x78#8], [0x30#8, 0x58#8]], ∃ ds : List (Fin 16 × Bool), ds ≠ [] ∧
      t = mark ++ ds.map hexSpelling ∧
      x.toNat = digitsValue 16 (ds.map fun d => d.1.val) % 16) ∧
  (∀ (mode : SymbolMatch) (table : SymbolTable) (t : Token), t.head? ≠ some 0x5B#8 →
    (∀ x : Nibble, hexNibble t = some x → resolveOperand mode table t = .ok x) ∧
    (hexNibble t = none → resolveOperand mode table t = .error .badLiteral))

/-- R72 (decision D22): the `db` values are exactly an optional `-` and one or more decimal digits, and the byte
is the number mod 256; any other value token is a bad literal in pass two, which emits the byte of a good one
(decision D23 for the capacity). -/
def Obligations.DecimalValuesSpellTheirByte : Prop :=
  (∀ (t : Token) (v : Byte), decimalByte t = some v ↔
    ∃ ds : List (Fin 10), ds ≠ [] ∧
      ((t = ds.map decimalSpelling ∧
          (v.toNat : Int) = (digitsValue 10 (ds.map Fin.val) : Int) % 256) ∨
       (t = 0x2D#8 :: ds.map decimalSpelling ∧
          (v.toNat : Int) = (-(digitsValue 10 (ds.map Fin.val) : Int)) % 256))) ∧
  (∀ (mode : SymbolMatch) (table : SymbolTable) (off : Nat) (name value : Token) (ts : List Token),
    (decimalByte value = none →
      passTwo mode table off (dbSpelling :: name :: value :: ts) = .error .badLiteral) ∧
    (∀ (v : Byte) (es : List Emission), decimalByte value = some v → off < 16 →
      passTwo mode table (off + 1) ts = .ok es →
      ∃ e, passTwo mode table off (dbSpelling :: name :: value :: ts) = .ok (e :: es) ∧ e.byte = v))

/-- R62 (decision D16): the keywords are exactly the ten spellings, byte for byte, with the control nibble and
the operand count of the table. -/
def Obligations.KeywordsAreTheTenSpellings : Prop :=
  (∀ (t : Token) (k : Keyword), keywordOf t = some k ↔
    (∃ p ∈ operandSpellings ++ plainSpellings, t = p.1 ∧ k = .instr p.2.1) ∨
      (t = dbSpelling ∧ k = .db)) ∧
  (∀ t : Token, keywordOf t = none ↔ NotAKeyword t) ∧
  (∀ p ∈ operandSpellings, p.2.1.control.toNat = p.2.2 ∧ p.2.1.takesOperand = true) ∧
  (∀ p ∈ plainSpellings, p.2.1.control.toNat = p.2.2 ∧ p.2.1.takesOperand = false)

/-- R63 (decisions D18, D24), R64, R73 and R78: pass one token by token. A token that spells no keyword is
skipped; `out` and `hlt` count one byte and take no token; the other mnemonics count one and take the next
token; `db` takes its name, whatever it spells, and its value, and records the name with the offset; a token
that is not there is a missing operand. -/
def Obligations.PassOneCountsAndRecords : Prop :=
  ∀ (off : Nat) (table : SymbolTable) (ts : List Token),
    passOne off table [] = .ok table ∧
    (∀ t, NotAKeyword t → passOne off table (t :: ts) = passOne off table ts) ∧
    (∀ p ∈ plainSpellings, passOne off table (p.1 :: ts) = passOne (off + 1) table ts) ∧
    (∀ p ∈ operandSpellings, passOne off table [p.1] = .error .missingOperand ∧
      ∀ operand, passOne off table (p.1 :: operand :: ts) = passOne (off + 1) table ts) ∧
    (passOne off table [dbSpelling] = .error .missingOperand ∧
      ∀ name, passOne off table [dbSpelling, name] = .error .missingOperand ∧
        ∀ value, passOne off table (dbSpelling :: name :: value :: ts) =
          passOne (off + 1) (table ++ [(name, off)]) ts)

/-- R66 (with decision D23 for the capacity), R67, R71, R72, R73 and R78: pass two token by token, where the
tokens after are assembled to `es`. A token that spells no keyword emits nothing; `out` is emitted as 0x50 and
`hlt` as 0xF0 without taking a token; the other mnemonics are emitted as their control nibble and the operand
the next token resolves to, or fail as it fails; `db` emits its value's byte, whatever its name spells. An
emission at 16 or beyond is over capacity, and one below 16 that is followed by an error has that error (R74,
R75). The list of emissions is the model's view of pass two (log entry 10), and so is that an operand's error
comes before the capacity check. -/
def Obligations.PassTwoEmitsWhatTheTokensSay : Prop :=
  ∀ (mode : SymbolMatch) (table : SymbolTable) (off : Nat) (ts : List Token),
    passTwo mode table off [] = .ok [] ∧
    (∀ t, NotAKeyword t → passTwo mode table off (t :: ts) = passTwo mode table off ts) ∧
    (∀ es, off < 16 → passTwo mode table (off + 1) ts = .ok es →
      (∃ e, passTwo mode table off ([0x6F, 0x75, 0x74] :: ts) = .ok (e :: es) ∧ e.byte = 0x50#8) ∧
      (∃ e, passTwo mode table off ([0x68, 0x6C, 0x74] :: ts) = .ok (e :: es) ∧ e.byte = 0xF0#8) ∧
      (∀ p ∈ operandSpellings, ∀ (operand : Token) (x : Nibble),
        resolveOperand mode table operand = .ok x →
        ∃ e, passTwo mode table off (p.1 :: operand :: ts) = .ok (e :: es) ∧
          e.byte.toNat = p.2.2 * 16 + x.toNat) ∧
      (∀ (name value : Token) (v : Byte), decimalByte value = some v →
        passTwo mode table off (dbSpelling :: name :: value :: ts) = .ok (.data name v :: es) ∧
          (Emission.data name v).byte = v)) ∧
    (∀ err, (16 ≤ off ∧ err = .overCapacity) ∨
        (off < 16 ∧ passTwo mode table (off + 1) ts = .error err) →
      (∀ p ∈ plainSpellings, passTwo mode table off (p.1 :: ts) = .error err) ∧
      (∀ p ∈ operandSpellings, ∀ (operand : Token) (x : Nibble), resolveOperand mode table operand = .ok x →
        passTwo mode table off (p.1 :: operand :: ts) = .error err) ∧
      (∀ (name value : Token) (v : Byte), decimalByte value = some v →
        passTwo mode table off (dbSpelling :: name :: value :: ts) = .error err)) ∧
    (∀ p ∈ operandSpellings, passTwo mode table off [p.1] = .error .missingOperand ∧
      ∀ (operand : Token) (err : AsmError), resolveOperand mode table operand = .error err →
        passTwo mode table off (p.1 :: operand :: ts) = .error err) ∧
    (passTwo mode table off [dbSpelling] = .error .missingOperand ∧
      ∀ name, passTwo mode table off [dbSpelling, name] = .error .missingOperand)

/-- R60 and R75 (decision D24): the assembler runs pass one and then pass two, from offset 0, over the same
tokens; the first error is its answer, with no image, and otherwise the image is the emitted bytes in order. -/
def Obligations.AssemblerRunsBothPasses : Prop :=
  ∀ (mode : SymbolMatch) (src : List Byte),
    (∀ err, passOne 0 [] (tokenize src) = .error err → assemble mode src = .error err) ∧
    (∀ table err, passOne 0 [] (tokenize src) = .ok table →
      passTwo mode table 0 (tokenize src) = .error err → assemble mode src = .error err) ∧
    (∀ table es, passOne 0 [] (tokenize src) = .ok table →
      passTwo mode table 0 (tokenize src) = .ok es → assemble mode src = .ok (es.map Emission.byte)) ∧
    assembleDefault src = assemble .exact src
end

