-- ==== Sys2Proof/Laws/Assembler.lean ====
section
/-! SUPPORT. What the assembler's shared operations can answer: one inversion lemma each, and each pass on one
token, by what the token is. -/

namespace Sys2Proof.Machine

/-- An emission that succeeds was below 16 and stands before what the rest emits (R66, R74). -/
theorem emitAt_ok (off : Nat) (e : Emission) (rest : AsmResult (List Emission)) (es : List Emission)
    (answer : emitAt off e rest = .ok es) : off < 16 ∧ ∃ later, rest = .ok later ∧ es = e :: later := by
  unfold emitAt at answer
  split at answer
  · split at answer
    · injection answer with h
      exact ⟨‹_›, _, rfl, h.symm⟩
    · cases answer
  · cases answer

/-- An emission that fails is over capacity, or what comes later failed. -/
theorem emitAt_error (off : Nat) (e : Emission) (rest : AsmResult (List Emission)) (err : AsmError)
    (answer : emitAt off e rest = .error err) : err = .overCapacity ∨ rest = .error err := by
  unfold emitAt at answer
  split at answer
  · split at answer
    · cases answer
    · injection answer with h
      exact .inr (h ▸ rfl)
  · injection answer with h
    exact .inl h.symm

/-! ### Each pass on one token (R63, R66) -/

section
variable (mode : SymbolMatch) (table : SymbolTable) (off : Nat) (t : Token) (ts : List Token)

theorem passOne_skip (kind : keywordOf t = none) : passOne off table (t :: ts) = passOne off table ts := by
  rw [passOne.eq_def]; simp only [kind]

theorem passOne_plain (m : Mnemonic) (kind : keywordOf t = some (.instr m)) (plain : m.takesOperand = false) :
    passOne off table (t :: ts) = passOne (off + 1) table ts := by
  rw [passOne.eq_def]; simp only [kind, plain, Bool.false_eq_true, if_false]

theorem passOne_operand (m : Mnemonic) (o : Token) (kind : keywordOf t = some (.instr m))
    (takes : m.takesOperand = true) :
    passOne off table (t :: o :: ts) = passOne (off + 1) table ts := by
  rw [passOne.eq_def]; simp only [kind, takes, if_true]

theorem passOne_db (name value : Token) (kind : keywordOf t = some .db) :
    passOne off table (t :: name :: value :: ts) = passOne (off + 1) (table ++ [(name, off)]) ts := by
  rw [passOne.eq_def]; simp only [kind]

theorem passTwo_skip (kind : keywordOf t = none) :
    passTwo mode table off (t :: ts) = passTwo mode table off ts := by
  rw [passTwo.eq_def]; simp only [kind]

theorem passTwo_plain (m : Mnemonic) (kind : keywordOf t = some (.instr m)) (plain : m.takesOperand = false) :
    passTwo mode table off (t :: ts) = emitAt off (.code m 0) (passTwo mode table (off + 1) ts) := by
  rw [passTwo.eq_def]; simp only [kind, plain, Bool.false_eq_true, if_false]

theorem passTwo_operand (m : Mnemonic) (o : Token) (x : Nibble) (kind : keywordOf t = some (.instr m))
    (takes : m.takesOperand = true) (resolved : resolveOperand mode table o = .ok x) :
    passTwo mode table off (t :: o :: ts) = emitAt off (.code m x) (passTwo mode table (off + 1) ts) := by
  rw [passTwo.eq_def]; simp only [kind, takes, if_true, resolved]

theorem passTwo_operand_error (m : Mnemonic) (o : Token) (err : AsmError)
    (kind : keywordOf t = some (.instr m)) (takes : m.takesOperand = true)
    (unresolved : resolveOperand mode table o = .error err) :
    passTwo mode table off (t :: o :: ts) = .error err := by
  rw [passTwo.eq_def]; simp only [kind, takes, if_true, unresolved]

theorem passTwo_db (name value : Token) (v : Byte) (kind : keywordOf t = some .db)
    (literal : decimalByte value = some v) :
    passTwo mode table off (t :: name :: value :: ts) =
      emitAt off (.data name v) (passTwo mode table (off + 1) ts) := by
  rw [passTwo.eq_def]; simp only [kind, literal]

end

/-- An emission below 16 that is followed by a success succeeds (R66). -/
theorem emitAt_below (off : Nat) (e : Emission) (es : List Emission) (below : off < 16) :
    emitAt off e (.ok es) = .ok (e :: es) := by
  unfold emitAt
  exact if_pos below

/-! ### Operands and digits -/

/-- An operand that fails to resolve was there (R67): it never answers a missing operand. -/
theorem resolveOperand_not_missing (mode : SymbolMatch) (table : SymbolTable) (t : Token) :
    resolveOperand mode table t ≠ .error .missingOperand := by
  unfold resolveOperand
  split
  · split
    · simp
    · split
      · simp
      · split <;> simp
  · split <;> simp

/-- A digit's value is below its base, so that a spelling is read uniquely (R68, R72). -/
theorem hexDigit_lt (b : Byte) (d : Nat) (digit : hexDigit b = some d) : d < 16 := by
  unfold hexDigit at digit
  split_ifs at digit <;> simp only [Option.some.injEq] at digit <;> omega

theorem decimalDigit_lt (b : Byte) (d : Nat) (digit : decimalDigit b = some d) : d < 10 := by
  unfold decimalDigit at digit
  split_ifs at digit
  simp only [Option.some.injEq] at digit
  omega

end Sys2Proof.Machine
end

