-- ==== Sys2Proof/Laws/Decode.lean ====
section
/-! SUPPORT. Nibbles of a byte, and the decoder and encoder in terms of them. -/

namespace Sys2Proof

@[simp] theorem highNibble_toNat (b : Byte) : (highNibble b).toNat = b.toNat / 16 := by
  have := b.isLt
  simp [highNibble, BitVec.extractLsb'_toNat, Nat.shiftRight_eq_div_pow]
  omega

@[simp] theorem lowNibble_toNat (b : Byte) : (lowNibble b).toNat = b.toNat % 16 := by
  simp [lowNibble, BitVec.extractLsb'_toNat]

@[simp] theorem packNibbles_toNat (op x : Nibble) : (packNibbles op x).toNat = op.toNat * 16 + x.toNat := by
  have := x.isLt
  simp only [packNibbles, BitVec.toNat_append, Nat.shiftLeft_eq]
  rw [← Nat.shiftLeft_eq, ← Nat.shiftLeft_add_eq_or_of_lt this, Nat.shiftLeft_eq]

@[simp] theorem highNibble_packNibbles (op x : Nibble) : highNibble (packNibbles op x) = op := by
  apply BitVec.eq_of_toNat_eq
  have := x.isLt
  rw [highNibble_toNat, packNibbles_toNat]
  omega

@[simp] theorem lowNibble_packNibbles (op x : Nibble) : lowNibble (packNibbles op x) = x := by
  apply BitVec.eq_of_toNat_eq
  have := x.isLt
  rw [lowNibble_toNat, packNibbles_toNat]
  omega

/-- The decoder looks at the high nibble's bits and hands on the low nibble (R49). -/
theorem decodeByte_eq (b : Byte) :
    decodeByte b = decodeFields ((highNibble b).getLsbD 3) ((highNibble b).getLsbD 2)
      ((highNibble b).getLsbD 1) ((highNibble b).getLsbD 0) (lowNibble b) := by
  simp [decodeByte, highNibble]

/-- What the decoder reads from a packed byte. -/
theorem decodeByte_packNibbles (op x : Nibble) :
    decodeByte (packNibbles op x) =
      decodeFields (op.getLsbD 3) (op.getLsbD 2) (op.getLsbD 1) (op.getLsbD 0) x := by
  rw [decodeByte_eq, highNibble_packNibbles, lowNibble_packNibbles]

end Sys2Proof
end

