-- ==== Sys2Proof/Laws/State.lean ====
section
/-! SUPPORT. One lemma per field per update of State, so that no proof unfolds a record update. -/

namespace Sys2Proof.Machine

@[simp] theorem State.setPC_pc (s : State) (v : Byte) : (s.setPC v).pc = v := rfl
@[simp] theorem State.setPC_ir (s : State) (v : Byte) : (s.setPC v).ir = s.ir := rfl
@[simp] theorem State.setPC_mar (s : State) (v : Byte) : (s.setPC v).mar = s.mar := rfl
@[simp] theorem State.setPC_ra (s : State) (v : Byte) : (s.setPC v).ra = s.ra := rfl
@[simp] theorem State.setPC_rb (s : State) (v : Byte) : (s.setPC v).rb = s.rb := rfl
@[simp] theorem State.setPC_c (s : State) (v : Byte) : (s.setPC v).c = s.c := rfl
@[simp] theorem State.setPC_mem (s : State) (v : Byte) : (s.setPC v).mem = s.mem := rfl
@[simp] theorem State.setPC_run (s : State) (v : Byte) : (s.setPC v).run = s.run := rfl
@[simp] theorem State.setPC_out (s : State) (v : Byte) : (s.setPC v).out = s.out := rfl

@[simp] theorem State.setIR_pc (s : State) (v : Byte) : (s.setIR v).pc = s.pc := rfl
@[simp] theorem State.setIR_ir (s : State) (v : Byte) : (s.setIR v).ir = v := rfl
@[simp] theorem State.setIR_mar (s : State) (v : Byte) : (s.setIR v).mar = s.mar := rfl
@[simp] theorem State.setIR_ra (s : State) (v : Byte) : (s.setIR v).ra = s.ra := rfl
@[simp] theorem State.setIR_rb (s : State) (v : Byte) : (s.setIR v).rb = s.rb := rfl
@[simp] theorem State.setIR_c (s : State) (v : Byte) : (s.setIR v).c = s.c := rfl
@[simp] theorem State.setIR_mem (s : State) (v : Byte) : (s.setIR v).mem = s.mem := rfl
@[simp] theorem State.setIR_run (s : State) (v : Byte) : (s.setIR v).run = s.run := rfl
@[simp] theorem State.setIR_out (s : State) (v : Byte) : (s.setIR v).out = s.out := rfl

@[simp] theorem State.setMAR_pc (s : State) (a : Nibble) : (s.setMAR a).pc = s.pc := rfl
@[simp] theorem State.setMAR_ir (s : State) (a : Nibble) : (s.setMAR a).ir = s.ir := rfl
@[simp] theorem State.setMAR_mar (s : State) (a : Nibble) : (s.setMAR a).mar = a := rfl
@[simp] theorem State.setMAR_ra (s : State) (a : Nibble) : (s.setMAR a).ra = s.ra := rfl
@[simp] theorem State.setMAR_rb (s : State) (a : Nibble) : (s.setMAR a).rb = s.rb := rfl
@[simp] theorem State.setMAR_c (s : State) (a : Nibble) : (s.setMAR a).c = s.c := rfl
@[simp] theorem State.setMAR_mem (s : State) (a : Nibble) : (s.setMAR a).mem = s.mem := rfl
@[simp] theorem State.setMAR_run (s : State) (a : Nibble) : (s.setMAR a).run = s.run := rfl
@[simp] theorem State.setMAR_out (s : State) (a : Nibble) : (s.setMAR a).out = s.out := rfl

@[simp] theorem State.setRA_pc (s : State) (v : Byte) : (s.setRA v).pc = s.pc := rfl
@[simp] theorem State.setRA_ir (s : State) (v : Byte) : (s.setRA v).ir = s.ir := rfl
@[simp] theorem State.setRA_mar (s : State) (v : Byte) : (s.setRA v).mar = s.mar := rfl
@[simp] theorem State.setRA_ra (s : State) (v : Byte) : (s.setRA v).ra = v := rfl
@[simp] theorem State.setRA_rb (s : State) (v : Byte) : (s.setRA v).rb = s.rb := rfl
@[simp] theorem State.setRA_c (s : State) (v : Byte) : (s.setRA v).c = s.c := rfl
@[simp] theorem State.setRA_mem (s : State) (v : Byte) : (s.setRA v).mem = s.mem := rfl
@[simp] theorem State.setRA_run (s : State) (v : Byte) : (s.setRA v).run = s.run := rfl
@[simp] theorem State.setRA_out (s : State) (v : Byte) : (s.setRA v).out = s.out := rfl

@[simp] theorem State.setRB_pc (s : State) (v : Byte) : (s.setRB v).pc = s.pc := rfl
@[simp] theorem State.setRB_ir (s : State) (v : Byte) : (s.setRB v).ir = s.ir := rfl
@[simp] theorem State.setRB_mar (s : State) (v : Byte) : (s.setRB v).mar = s.mar := rfl
@[simp] theorem State.setRB_ra (s : State) (v : Byte) : (s.setRB v).ra = s.ra := rfl
@[simp] theorem State.setRB_rb (s : State) (v : Byte) : (s.setRB v).rb = v := rfl
@[simp] theorem State.setRB_c (s : State) (v : Byte) : (s.setRB v).c = s.c := rfl
@[simp] theorem State.setRB_mem (s : State) (v : Byte) : (s.setRB v).mem = s.mem := rfl
@[simp] theorem State.setRB_run (s : State) (v : Byte) : (s.setRB v).run = s.run := rfl
@[simp] theorem State.setRB_out (s : State) (v : Byte) : (s.setRB v).out = s.out := rfl

@[simp] theorem State.setC_pc (s : State) (b : Bool) : (s.setC b).pc = s.pc := rfl
@[simp] theorem State.setC_ir (s : State) (b : Bool) : (s.setC b).ir = s.ir := rfl
@[simp] theorem State.setC_mar (s : State) (b : Bool) : (s.setC b).mar = s.mar := rfl
@[simp] theorem State.setC_ra (s : State) (b : Bool) : (s.setC b).ra = s.ra := rfl
@[simp] theorem State.setC_rb (s : State) (b : Bool) : (s.setC b).rb = s.rb := rfl
@[simp] theorem State.setC_c (s : State) (b : Bool) : (s.setC b).c = b := rfl
@[simp] theorem State.setC_mem (s : State) (b : Bool) : (s.setC b).mem = s.mem := rfl
@[simp] theorem State.setC_run (s : State) (b : Bool) : (s.setC b).run = s.run := rfl
@[simp] theorem State.setC_out (s : State) (b : Bool) : (s.setC b).out = s.out := rfl

@[simp] theorem State.setRun_pc (s : State) (r : RunState) : (s.setRun r).pc = s.pc := rfl
@[simp] theorem State.setRun_ir (s : State) (r : RunState) : (s.setRun r).ir = s.ir := rfl
@[simp] theorem State.setRun_mar (s : State) (r : RunState) : (s.setRun r).mar = s.mar := rfl
@[simp] theorem State.setRun_ra (s : State) (r : RunState) : (s.setRun r).ra = s.ra := rfl
@[simp] theorem State.setRun_rb (s : State) (r : RunState) : (s.setRun r).rb = s.rb := rfl
@[simp] theorem State.setRun_c (s : State) (r : RunState) : (s.setRun r).c = s.c := rfl
@[simp] theorem State.setRun_mem (s : State) (r : RunState) : (s.setRun r).mem = s.mem := rfl
@[simp] theorem State.setRun_run (s : State) (r : RunState) : (s.setRun r).run = r := rfl
@[simp] theorem State.setRun_out (s : State) (r : RunState) : (s.setRun r).out = s.out := rfl

@[simp] theorem State.store_pc (s : State) (a : Nat) (v : Byte) : (s.store a v).pc = s.pc := rfl
@[simp] theorem State.store_ir (s : State) (a : Nat) (v : Byte) : (s.store a v).ir = s.ir := rfl
@[simp] theorem State.store_mar (s : State) (a : Nat) (v : Byte) : (s.store a v).mar = s.mar := rfl
@[simp] theorem State.store_ra (s : State) (a : Nat) (v : Byte) : (s.store a v).ra = s.ra := rfl
@[simp] theorem State.store_rb (s : State) (a : Nat) (v : Byte) : (s.store a v).rb = s.rb := rfl
@[simp] theorem State.store_c (s : State) (a : Nat) (v : Byte) : (s.store a v).c = s.c := rfl
@[simp] theorem State.store_mem (s : State) (a : Nat) (v : Byte) : (s.store a v).mem = Memory.write s.mem a v := rfl
@[simp] theorem State.store_run (s : State) (a : Nat) (v : Byte) : (s.store a v).run = s.run := rfl
@[simp] theorem State.store_out (s : State) (a : Nat) (v : Byte) : (s.store a v).out = s.out := rfl

@[simp] theorem State.emit_pc (s : State) (v : Byte) : (s.emit v).pc = s.pc := rfl
@[simp] theorem State.emit_ir (s : State) (v : Byte) : (s.emit v).ir = s.ir := rfl
@[simp] theorem State.emit_mar (s : State) (v : Byte) : (s.emit v).mar = s.mar := rfl
@[simp] theorem State.emit_ra (s : State) (v : Byte) : (s.emit v).ra = s.ra := rfl
@[simp] theorem State.emit_rb (s : State) (v : Byte) : (s.emit v).rb = s.rb := rfl
@[simp] theorem State.emit_c (s : State) (v : Byte) : (s.emit v).c = s.c := rfl
@[simp] theorem State.emit_mem (s : State) (v : Byte) : (s.emit v).mem = s.mem := rfl
@[simp] theorem State.emit_run (s : State) (v : Byte) : (s.emit v).run = s.run := rfl
@[simp] theorem State.emit_out (s : State) (v : Byte) : (s.emit v).out = s.out ++ [v] := rfl

/-! Fetch and increment (R80, R81): what each writes, and that it writes nothing else. -/

@[simp] theorem State.fetch_pc (s : State) : s.fetch.pc = s.pc := rfl
@[simp] theorem State.fetch_ir (s : State) : s.fetch.ir = Memory.read s.mem s.fetchAddress.toNat := rfl
@[simp] theorem State.fetch_mar (s : State) : s.fetch.mar = s.fetchAddress := rfl
@[simp] theorem State.fetch_ra (s : State) : s.fetch.ra = s.ra := rfl
@[simp] theorem State.fetch_rb (s : State) : s.fetch.rb = s.rb := rfl
@[simp] theorem State.fetch_c (s : State) : s.fetch.c = s.c := rfl
@[simp] theorem State.fetch_mem (s : State) : s.fetch.mem = s.mem := rfl
@[simp] theorem State.fetch_run (s : State) : s.fetch.run = s.run := rfl
@[simp] theorem State.fetch_out (s : State) : s.fetch.out = s.out := rfl

@[simp] theorem State.increment_pc (s : State) : s.increment.pc = zext8 (s.fetchAddress + 1) := rfl
@[simp] theorem State.increment_ir (s : State) : s.increment.ir = s.ir := rfl
@[simp] theorem State.increment_mar (s : State) : s.increment.mar = s.mar := rfl
@[simp] theorem State.increment_ra (s : State) : s.increment.ra = s.ra := rfl
@[simp] theorem State.increment_rb (s : State) : s.increment.rb = s.rb := rfl
@[simp] theorem State.increment_c (s : State) : s.increment.c = s.c := rfl
@[simp] theorem State.increment_mem (s : State) : s.increment.mem = s.mem := rfl
@[simp] theorem State.increment_run (s : State) : s.increment.run = s.run := rfl
@[simp] theorem State.increment_out (s : State) : s.increment.out = s.out := rfl

@[simp] theorem State.fetchIncrement_pc (s : State) : s.fetchIncrement.pc = zext8 (s.fetchAddress + 1) := rfl
@[simp] theorem State.fetchIncrement_ir (s : State) : s.fetchIncrement.ir = Memory.read s.mem s.fetchAddress.toNat := rfl
@[simp] theorem State.fetchIncrement_mar (s : State) : s.fetchIncrement.mar = s.fetchAddress := rfl
@[simp] theorem State.fetchIncrement_ra (s : State) : s.fetchIncrement.ra = s.ra := rfl
@[simp] theorem State.fetchIncrement_rb (s : State) : s.fetchIncrement.rb = s.rb := rfl
@[simp] theorem State.fetchIncrement_c (s : State) : s.fetchIncrement.c = s.c := rfl
@[simp] theorem State.fetchIncrement_mem (s : State) : s.fetchIncrement.mem = s.mem := rfl
@[simp] theorem State.fetchIncrement_run (s : State) : s.fetchIncrement.run = s.run := rfl
@[simp] theorem State.fetchIncrement_out (s : State) : s.fetchIncrement.out = s.out := rfl

/-! Reset with an image (R30): every field. -/

@[simp] theorem State.resetWith_pc (image : List Byte) : (State.resetWith image).pc = 0 := rfl
@[simp] theorem State.resetWith_ir (image : List Byte) : (State.resetWith image).ir = 0 := rfl
@[simp] theorem State.resetWith_mar (image : List Byte) : (State.resetWith image).mar = 0 := rfl
@[simp] theorem State.resetWith_ra (image : List Byte) : (State.resetWith image).ra = 0 := rfl
@[simp] theorem State.resetWith_rb (image : List Byte) : (State.resetWith image).rb = 0 := rfl
@[simp] theorem State.resetWith_c (image : List Byte) : (State.resetWith image).c = false := rfl
@[simp] theorem State.resetWith_mem (image : List Byte) : (State.resetWith image).mem = Memory.load image := rfl
@[simp] theorem State.resetWith_run (image : List Byte) : (State.resetWith image).run = .running := rfl
@[simp] theorem State.resetWith_out (image : List Byte) : (State.resetWith image).out = [] := rfl

end Sys2Proof.Machine
end

