-- ==== Sys2Proof/Laws/Exec.lean ====
section
/-! SUPPORT. One lemma per shared operation, per meaning and for the step: what each answers. Proofs cite
these and do not unfold the definitions. -/

namespace Sys2Proof.Machine

theorem zext8_toNat (x : Nibble) : (zext8 x).toNat = x.toNat := by
  have := x.isLt
  simp [zext8]
  omega

theorem immediate_toNat (x : Nibble) : (immediate x).toNat = x.toNat := zext8_toNat x

theorem jumpTarget_toNat (x : Nibble) : (jumpTarget x).toNat = x.toNat := zext8_toNat x

/-- Taking the illegal-instruction exception writes the run state alone (R102, R104). -/
theorem raiseIllegal_eq (op : Nibble) (s : State) :
    raiseIllegal op s = .next { s with run := .faulted ⟨op, s.mar⟩ } := rfl

/-- `halt` writes the run state alone (R100). -/
theorem halt_eq (s : State) : halt s = .next { s with run := .halted } := rfl

theorem exec_lda (x : Nibble) (s : State) :
    exec (.lda x) s = .next { s with ra := Memory.read s.mem (operandAddress x) } := rfl

theorem exec_sta (x : Nibble) (s : State) :
    exec (.sta x) s = .next { s with mem := Memory.write s.mem (operandAddress x) s.ra } := rfl

theorem exec_ldi (x : Nibble) (s : State) : exec (.ldi x) s = .next { s with ra := immediate x } := rfl

theorem exec_add (x : Nibble) (s : State) :
    exec (.add x) s = .next { s with
      rb := Memory.read s.mem (operandAddress x)
      c := carryOut s.ra (Memory.read s.mem (operandAddress x))
      ra := add8 s.ra (Memory.read s.mem (operandAddress x)) } := rfl

theorem exec_sub (x : Nibble) (s : State) :
    exec (.sub x) s = .next { s with
      rb := Memory.read s.mem (operandAddress x)
      ra := sub8 s.ra (Memory.read s.mem (operandAddress x)) } := rfl

theorem exec_jmp (x : Nibble) (s : State) : exec (.jmp x) s = .next { s with pc := jumpTarget x } := rfl

theorem exec_jc (x : Nibble) (s : State) :
    exec (.jc x) s = .next { s with pc := if s.c = true then jumpTarget x else s.pc } := by
  simp only [exec, execJc]
  split <;> rfl

theorem exec_out (n : Nibble) (s : State) : exec (.out n) s = .next { s with out := s.out ++ [s.ra] } := rfl

theorem exec_hlt (n : Nibble) (s : State) : exec (.hlt n) s = .next { s with run := .halted } := rfl

/-- Every instruction that is not a defined one raises the exception with its own opcode (R102). -/
theorem exec_of_not_wellFormed (i : Instr) (s : State) (illegal : i.WellFormed = false) :
    exec i s = raiseIllegal i.opcode s := by
  cases i <;> first | rfl | cases illegal

/-- A running core's step is the execute phase of the fetched instruction after fetch and increment (R84). -/
theorem step_running (s : State) (running : s.run = .running) :
    step s = exec (decodeByte s.fetchIncrement.ir) s.fetchIncrement := by
  simp only [step, running]

/-- A stopped core's step changes nothing (R28, R79). -/
theorem step_stopped (s : State) (stopped : s.run ≠ .running) : step s = .next s := by
  cases h : s.run with
  | running => exact absurd h stopped
  | halted => simp only [step, h, stayStopped]
  | faulted r => simp only [step, h, stayStopped]

end Sys2Proof.Machine
end

