-- ==== Sys2Proof/Laws/Memory.lean ====
section
/-! SUPPORT. The laws of memory: a read after a write, the read after an image load, and that every operation
keeps the canonical form. -/

namespace Sys2Proof.Machine

/-! ### Reading -/

theorem Memory.lookup_erase (m : Memory) (a b : Nat) :
    Memory.lookup b (Memory.erase a m) = if b = a then 0 else Memory.lookup b m := by
  induction m with
  | nil => simp [Memory.erase, Memory.lookup]
  | cons cell rest ih =>
    obtain ⟨k, v⟩ := cell
    by_cases hk : k = a
    · rw [Memory.erase, if_pos hk, ih, Memory.lookup]
      split
      · rfl
      · rw [if_neg (by omega)]
    · rw [Memory.erase, if_neg hk, Memory.lookup, Memory.lookup, ih]
      split
      · rw [if_neg (by omega)]
      · rfl

theorem Memory.erase_absent (m : Memory) (a : Nat) : ∀ p ∈ Memory.erase a m, p.1 ≠ a := by
  induction m with
  | nil => simp [Memory.erase]
  | cons cell rest ih =>
    obtain ⟨k, v⟩ := cell
    simp only [Memory.erase]
    split
    · exact ih
    · intro p hp
      rcases List.mem_cons.mp hp with rfl | hp
      · assumption
      · exact ih p hp

theorem Memory.lookup_place (m : Memory) (a b : Nat) (v : Byte) (absent : ∀ p ∈ m, p.1 ≠ a) :
    Memory.lookup b (Memory.place a v m) = if b = a then v else Memory.lookup b m := by
  induction m with
  | nil => simp [Memory.place, Memory.lookup, eq_comm]
  | cons cell rest ih =>
    obtain ⟨k, w⟩ := cell
    have hk : k ≠ a := absent _ List.mem_cons_self
    have hrest : ∀ p ∈ rest, p.1 ≠ a := fun p hp => absent p (List.mem_cons_of_mem _ hp)
    simp only [Memory.place]
    split
    · simp only [Memory.lookup, eq_comm]
    · simp only [Memory.lookup, ih hrest]
      split <;> simp_all

theorem Memory.lookup_update (m : Memory) (a b : Nat) (v : Byte) :
    Memory.lookup b (Memory.update a v m) = if b = a then v else Memory.lookup b m := by
  unfold Memory.update
  split
  · simp_all [Memory.lookup_erase]
  · rw [Memory.lookup_place _ _ _ _ (Memory.erase_absent m a), Memory.lookup_erase]
    split <;> rfl

/-- What a read gives after a write, for every address and every memory, canonical or not (R9, R37). -/
theorem Memory.read_write (m : Memory) (a b : Nat) (v : Byte) :
    Memory.read (Memory.write m a v) b = if b % 16 = a % 16 then v else Memory.read m b :=
  Memory.lookup_update m (a % 16) (b % 16) v

theorem Memory.read_write_same (m : Memory) (a : Nat) (v : Byte) :
    Memory.read (Memory.write m a v) a = v := by
  simp [Memory.read_write]

theorem Memory.read_write_other (m : Memory) (a b : Nat) (v : Byte) (other : b % 16 ≠ a % 16) :
    Memory.read (Memory.write m a v) b = Memory.read m b := by
  simp [Memory.read_write, other]

theorem Memory.read_mod (m : Memory) (a : Nat) : Memory.read m (a % 16) = Memory.read m a := by
  simp [Memory.read, Config.memorySize]

/-- After loading bytes at `start` on, below 16, each of their cells reads the byte and the others are kept. -/
theorem Memory.read_loadFrom (bytes : List Byte) (start a : Nat) (m : Memory)
    (fits : start + bytes.length ≤ 16) (low : a < 16) :
    Memory.read (Memory.loadFrom start bytes m) a =
      if start ≤ a ∧ a < start + bytes.length then bytes.getD (a - start) 0 else Memory.read m a := by
  induction bytes generalizing start m with
  | nil => simp [Memory.loadFrom]
  | cons b bs ih =>
    simp only [List.length_cons] at fits ⊢
    rw [Memory.loadFrom, ih (start + 1) _ (by omega), Memory.read_write]
    by_cases h : start = a
    · subst h; simp
    · rw [if_neg (show ¬ a % 16 = start % 16 by omega)]
      by_cases h' : start ≤ a
      · obtain ⟨k, rfl⟩ : ∃ k, a = start + 1 + k := ⟨a - (start + 1), by omega⟩
        simp [show start + 1 + k - start = k + 1 by omega, show start ≤ start + 1 + k by omega,
          show start + 1 + k < start + (bs.length + 1) ↔ start + 1 + k < start + 1 + bs.length by omega]
      · simp [h', show ¬ start + 1 ≤ a by omega]

/-! ### The canonical form -/

theorem Memory.wfFrom_cons (lo a : Nat) (v : Byte) (rest : Memory) :
    Memory.wfFrom lo ((a, v) :: rest) = true ↔
      lo ≤ a ∧ a < 16 ∧ v ≠ 0 ∧ Memory.wfFrom (a + 1) rest = true := by
  simp only [Memory.wfFrom, Bool.and_eq_true, decide_eq_true_eq, and_assoc]
  rfl

theorem Memory.wfFrom_mono (m : Memory) (lo lo' : Nat) (le : lo ≤ lo')
    (wf : Memory.wfFrom lo' m = true) : Memory.wfFrom lo m = true := by
  cases m with
  | nil => rfl
  | cons cell rest =>
    obtain ⟨above, others⟩ := (Memory.wfFrom_cons ..).mp wf
    exact (Memory.wfFrom_cons ..).mpr ⟨le_trans le above, others⟩

theorem Memory.wfFrom_erase (m : Memory) (lo a : Nat) (wf : Memory.wfFrom lo m = true) :
    Memory.wfFrom lo (Memory.erase a m) = true := by
  induction m generalizing lo with
  | nil => rfl
  | cons cell rest ih =>
    obtain ⟨k, v⟩ := cell
    obtain ⟨above, low, nonzero, wfRest⟩ := (Memory.wfFrom_cons ..).mp wf
    rw [Memory.erase]
    split
    · exact Memory.wfFrom_mono _ lo (k + 1) (by omega) (ih (k + 1) wfRest)
    · exact (Memory.wfFrom_cons ..).mpr ⟨above, low, nonzero, ih (k + 1) wfRest⟩

theorem Memory.wfFrom_place (m : Memory) (lo a : Nat) (v : Byte) (wf : Memory.wfFrom lo m = true)
    (absent : ∀ p ∈ m, p.1 ≠ a) (above : lo ≤ a) (low : a < 16) (nonzero : v ≠ 0) :
    Memory.wfFrom lo (Memory.place a v m) = true := by
  induction m generalizing lo with
  | nil => exact (Memory.wfFrom_cons ..).mpr ⟨above, low, nonzero, rfl⟩
  | cons cell rest ih =>
    obtain ⟨k, w⟩ := cell
    have hk : k ≠ a := absent _ List.mem_cons_self
    obtain ⟨kAbove, kLow, kNonzero, wfRest⟩ := (Memory.wfFrom_cons ..).mp wf
    rw [Memory.place]
    split
    · exact (Memory.wfFrom_cons ..).mpr
        ⟨above, low, nonzero, (Memory.wfFrom_cons ..).mpr ⟨by omega, kLow, kNonzero, wfRest⟩⟩
    · exact (Memory.wfFrom_cons ..).mpr ⟨kAbove, kLow, kNonzero,
        ih (k + 1) wfRest (fun p hp => absent p (List.mem_cons_of_mem _ hp)) (by omega)⟩

/-- A write keeps the canonical form. -/
theorem Memory.wf_write (m : Memory) (a : Nat) (v : Byte) (wf : Memory.wf m = true) :
    Memory.wf (Memory.write m a v) = true := by
  unfold Memory.write Memory.update Memory.wf
  split
  · exact Memory.wfFrom_erase m 0 _ wf
  · exact Memory.wfFrom_place _ 0 _ v (Memory.wfFrom_erase m 0 _ wf) (Memory.erase_absent m _)
      (Nat.zero_le _) (Nat.mod_lt _ (by decide)) ‹_›

theorem Memory.wf_loadFrom (bytes : List Byte) (start : Nat) (m : Memory) (wf : Memory.wf m = true) :
    Memory.wf (Memory.loadFrom start bytes m) = true := by
  induction bytes generalizing start m with
  | nil => exact wf
  | cons b bs ih => exact ih (start + 1) _ (Memory.wf_write m start b wf)

/-- Loading an image gives a memory in the canonical form. -/
theorem Memory.wf_load (image : List Byte) : Memory.wf (Memory.load image) = true :=
  Memory.wf_loadFrom _ 0 [] rfl

/-- The memory after reset is in the canonical form. -/
theorem State.reset_mem_wf : Memory.wf State.reset.mem = true := rfl

end Sys2Proof.Machine
end

