-- ==== Sys2Proof/Laws/PerInstr.lean ====
section
/-! SUPPORT. One statement about every instruction as syntax, proved constructor by constructor. -/

namespace Sys2Proof.Laws.Fields

/-- The byte of the instruction has the opcode in its high nibble and the operand in its low nibble (R48), and
it is well-formed exactly when the opcode is a defined one (R53). -/
def Statement (i : Instr) : Prop :=
  highNibble (encodeByte i) = i.opcode ∧ lowNibble (encodeByte i) = i.operand ∧
    (i.WellFormed = true ↔ i.opcode ∈ [1#4, 2#4, 3#4, 4#4, 5#4, 6#4, 7#4, 8#4, 15#4])

theorem lda (x : Nibble) : Statement (.lda x) := by
  simp [Statement, encodeByte, Instr.opcode, Instr.operand, Instr.WellFormed]

theorem add (x : Nibble) : Statement (.add x) := by
  simp [Statement, encodeByte, Instr.opcode, Instr.operand, Instr.WellFormed]

theorem sub (x : Nibble) : Statement (.sub x) := by
  simp [Statement, encodeByte, Instr.opcode, Instr.operand, Instr.WellFormed]

theorem sta (x : Nibble) : Statement (.sta x) := by
  simp [Statement, encodeByte, Instr.opcode, Instr.operand, Instr.WellFormed]

theorem out (x : Nibble) : Statement (.out x) := by
  simp [Statement, encodeByte, Instr.opcode, Instr.operand, Instr.WellFormed]

theorem jmp (x : Nibble) : Statement (.jmp x) := by
  simp [Statement, encodeByte, Instr.opcode, Instr.operand, Instr.WellFormed]

theorem ldi (x : Nibble) : Statement (.ldi x) := by
  simp [Statement, encodeByte, Instr.opcode, Instr.operand, Instr.WellFormed]

theorem jc (x : Nibble) : Statement (.jc x) := by
  simp [Statement, encodeByte, Instr.opcode, Instr.operand, Instr.WellFormed]

theorem hlt (x : Nibble) : Statement (.hlt x) := by
  simp [Statement, encodeByte, Instr.opcode, Instr.operand, Instr.WellFormed]

theorem illegal0 (x : Nibble) : Statement (.illegal0 x) := by
  simp [Statement, encodeByte, Instr.opcode, Instr.operand, Instr.WellFormed]

theorem illegal9 (x : Nibble) : Statement (.illegal9 x) := by
  simp [Statement, encodeByte, Instr.opcode, Instr.operand, Instr.WellFormed]

theorem illegalA (x : Nibble) : Statement (.illegalA x) := by
  simp [Statement, encodeByte, Instr.opcode, Instr.operand, Instr.WellFormed]

theorem illegalB (x : Nibble) : Statement (.illegalB x) := by
  simp [Statement, encodeByte, Instr.opcode, Instr.operand, Instr.WellFormed]

theorem illegalC (x : Nibble) : Statement (.illegalC x) := by
  simp [Statement, encodeByte, Instr.opcode, Instr.operand, Instr.WellFormed]

theorem illegalD (x : Nibble) : Statement (.illegalD x) := by
  simp [Statement, encodeByte, Instr.opcode, Instr.operand, Instr.WellFormed]

theorem illegalE (x : Nibble) : Statement (.illegalE x) := by
  simp [Statement, encodeByte, Instr.opcode, Instr.operand, Instr.WellFormed]

end Sys2Proof.Laws.Fields
end

