-- ==== Sys2Proof/Laws/Run.lean ====
section
/-! SUPPORT. Runs of the machine behind the host's interface, one step at a time. -/

namespace Sys2Proof.Machine

/-- The host's run of `k` steps, with the model's own types. -/
def runSteps (k : Nat) (s : State) : Answer := Host.Core.run Sys2Proof.core k s

theorem run_eq_runSteps (k : Nat) (s : State) : Host.Core.run Sys2Proof.core k s = runSteps k s := rfl

theorem runSteps_zero (s : State) : runSteps 0 s = .next s := rfl

theorem runSteps_succ (k : Nat) (s t : State) (first : step s = .next t) :
    runSteps (k + 1) s = runSteps k t := by
  have h : Sys2Proof.core.step s = .next t := first
  simp only [runSteps, Host.Core.run, h]
  rfl

end Sys2Proof.Machine
end

