-- ==== Sys2Proof/Tests/Slice0.lean ====
section
/-! SUPPORT. Small checks of the model against vectors of spec/95_test_vectors.md (each named in a comment),
the smoke test of WellFormed, and for each obligation with hypotheses a witness that meets them. -/

namespace Sys2Proof.Tests

open Sys2Proof.Machine

/-! ### WellFormed: an ill-formed term for each check -/

theorem test_wellFormed_refuses_illegal :
    (Instr.illegal0 0#4).WellFormed = false ∧ (Instr.illegal9 0#4).WellFormed = false ∧
    (Instr.illegalA 3#4).WellFormed = false ∧ (Instr.illegalB 0#4).WellFormed = false ∧
    (Instr.illegalC 15#4).WellFormed = false ∧ (Instr.illegalD 0#4).WellFormed = false ∧
    (Instr.illegalE 15#4).WellFormed = false := by decide

theorem test_wellFormed_accepts_defined :
    (Instr.lda 7#4).WellFormed = true ∧ (Instr.hlt 5#4).WellFormed = true := by decide

theorem test_canonical_refuses_nonzero_ignored_nibble :
    (Instr.out 12#4).Canonical = false ∧ (Instr.hlt 15#4).Canonical = false ∧
    (Instr.illegal0 0#4).Canonical = false ∧ (Instr.out 0#4).Canonical = true := by decide

/-! ### Decoding: bytes written out from R48 and R53, opcode bits then operand bits -/

theorem test_decode_data_transfer :
    decodeByte 0b00010111#8 = .lda 7#4 ∧ decodeByte 0b01001010#8 = .sta 10#4 ∧
    decodeByte 0b01111111#8 = .ldi 15#4 := by decide

theorem test_decode_arithmetic :
    decodeByte 0b00101111#8 = .add 15#4 ∧ decodeByte 0b00110001#8 = .sub 1#4 := by decide

theorem test_decode_control :
    decodeByte 0b01101000#8 = .jmp 8#4 ∧ decodeByte 0b10000110#8 = .jc 6#4 := by decide

theorem test_decode_output_halt :
    decodeByte 0b01011100#8 = .out 12#4 ∧ decodeByte 0b11110001#8 = .hlt 1#4 := by decide

theorem test_decode_illegal :
    decodeByte 0b00001111#8 = .illegal0 15#4 ∧ decodeByte 0b10010010#8 = .illegal9 2#4 ∧
    decodeByte 0b10100011#8 = .illegalA 3#4 ∧ decodeByte 0b10110100#8 = .illegalB 4#4 ∧
    decodeByte 0b11000101#8 = .illegalC 5#4 ∧ decodeByte 0b11010110#8 = .illegalD 6#4 ∧
    decodeByte 0b11100111#8 = .illegalE 7#4 := by decide

/-- R59 and 95's encode vectors: encode(0x7, 5) = 75, encode(0xF, 0) = F0, encode(0x1, 15) = 1F. -/
theorem test_encode :
    encode (.ldi 5#4) = [0x75#8] ∧ encode (.hlt 0#4) = [0xF0#8] ∧ encode (.lda 15#4) = [0x1F#8] := by decide

theorem test_decodeTableWord :
    decodeTableWord 8 0x10 = some (.lda 0#4) ∧ decodeTableWord 8 0xE0 = some (.illegalE 0#4) := by decide

/-! ### One step on small states -/

/-- A running state with a PC, an accumulator, a carry and some cells. -/
def small (pc ra : Byte) (c : Bool) (cells : Memory) : State :=
  { State.reset with pc := pc, ra := ra, c := c, mem := cells }

/-- The state after one step, if the step answers one. -/
def next (s : State) : Option State :=
  match step s with
  | .next t => some t
  | .fault _ => none
  | .refused _ => none

/-- L2-LDA-1 (C unchanged) and L2-LDA-2 (the instruction's own byte). -/
theorem test_lda :
    (next (small 0 0 true [(0, 0x17), (7, 0xC8)])).map (fun t => (t.ra, t.pc, t.c)) = some (200, 1, true) ∧
    (next (small 0 0 false [(0, 0x10)])).map (·.ra) = some 0x10 := by decide

/-- L2-STA-1, and L2-STA-2: the own cell is overwritten, IR keeps the byte fetched. -/
theorem test_sta :
    (next (small 4 230 false [(4, 0x47)])).map (fun t => (Memory.read t.mem 7, t.pc)) = some (230, 5) ∧
    (next (small 0 0xF0 false [(0, 0x40)])).map (fun t => (Memory.read t.mem 0, t.ir)) = some (0xF0, 0x40) := by
  decide

/-- Storing 0 lists nothing (R30's value of an unlisted cell), and the read gives 0. -/
theorem test_sta_zero :
    (next (small 0 0 false [(0, 0x47), (7, 9)])).map (·.mem) = some [(0, 0x47)] := by decide

/-- L2-LDI-2 (C kept) and L2-LDI-3 (zero-extended). -/
theorem test_ldi :
    (next (small 0 255 true [(0, 0x70)])).map (fun t => (t.ra, t.c)) = some (0, true) ∧
    (next (small 0 0 false [(0, 0x7F)])).map (·.ra) = some 15 := by decide

/-- L2-ADD-2 and L2-ADD-7. -/
theorem test_add_carries :
    (next (small 0 250 false [(0, 0x25), (5, 10)])).map (fun t => (t.ra, t.rb, t.c)) = some (4, 10, true) ∧
    (next (small 0 255 false [(0, 0x25), (5, 255)])).map (fun t => (t.ra, t.rb, t.c)) = some (254, 255, true) := by
  decide

/-- L2-ADD-3 (carry cleared) and L2-ADD-9 (the instruction's own byte). -/
theorem test_add_clears_carry :
    (next (small 0 255 true [(0, 0x25)])).map (fun t => (t.ra, t.c)) = some (255, false) ∧
    (next (small 0 5 false [(0, 0x20)])).map (fun t => (t.ra, t.rb, t.c)) = some (37, 32, false) := by decide

/-- L2-SUB-3 (wraps, C unchanged) and L2-SUB-6. -/
theorem test_sub :
    (next (small 0 2 true [(0, 0x35), (5, 5)])).map (fun t => (t.ra, t.rb, t.c)) = some (253, 5, true) ∧
    (next (small 0 0 false [(0, 0x35), (5, 255)])).map (fun t => (t.ra, t.rb, t.c)) = some (1, 255, false) := by
  decide

/-- L2-JMP-1 and L2-JMP-3. -/
theorem test_jmp :
    (next (small 5 0 false [(5, 0x60)])).map (·.pc) = some 0 ∧
    (next (small 3 0 false [(3, 0x63)])).map (fun t => (t.pc, t.run)) = some (3, .running) := by decide

/-- L2-JC-1 (taken, C stays), L2-JC-2 (not taken), L2-JC-3 (not taken, wraps). -/
theorem test_jc :
    (next (small 3 0 true [(3, 0x86)])).map (fun t => (t.pc, t.c)) = some (6, true) ∧
    (next (small 3 0 false [(3, 0x86)])).map (·.pc) = some 4 ∧
    (next (small 15 0 false [(15, 0x80)])).map (·.pc) = some 0 := by decide

/-- L2-CYC-2 (PC wraps after `out`) and L2-OUT-2 (operand nibble ignored). -/
theorem test_out :
    (next (small 15 9 false [(15, 0x50)])).map (fun t => (t.pc, t.mar, t.out)) = some (0, 15, [9]) ∧
    (next (small 0 4 false [(0, 0x57)])).map (·.out) = some [4] := by decide

/-- L2-HLT-1 and L2-HLT-2 (operand nibble ignored). -/
theorem test_hlt :
    (next (small 2 5 true [(2, 0xF0)])).map (fun t => (t.run, t.pc, t.ra, t.c)) = some (.halted, 3, 5, true) ∧
    (next (small 0 0 false [(0, 0xFA)])).map (fun t => (t.run, t.pc)) = some (.halted, 1) := by decide

/-- L2-CYC-5: a halted core does not change. -/
theorem test_halted_stays :
    next { small 2 5 true [(2, 0x75)] with run := .halted } =
      some { small 2 5 true [(2, 0x75)] with run := .halted } := by decide

/-- L2-ILL-1 and L2-ILL-2 (the empty image), and L2-CYC-4. -/
theorem test_illegal_records :
    (next State.reset).map (fun t => (t.run, t.pc)) = some (.faulted ⟨0, 0⟩, 1) ∧
    (next (small 15 0 false [(15, 0xA3)])).map (fun t => (t.run, t.pc)) = some (.faulted ⟨0xA, 15⟩, 0) := by decide

/-- R102 for the other illegal opcodes, each with its own opcode in the record. -/
theorem test_illegal_opcodes :
    (next (small 1 0 false [(1, 0x9C)])).map (·.run) = some (.faulted ⟨0x9, 1⟩) ∧
    (next (small 2 0 false [(2, 0xB0)])).map (·.run) = some (.faulted ⟨0xB, 2⟩) ∧
    (next (small 2 0 false [(2, 0xC1)])).map (·.run) = some (.faulted ⟨0xC, 2⟩) ∧
    (next (small 2 0 false [(2, 0xD2)])).map (·.run) = some (.faulted ⟨0xD, 2⟩) ∧
    (next (small 14 0 false [(14, 0xE0)])).map (·.run) = some (.faulted ⟨0xE, 14⟩) := by decide

theorem test_withFetchWord :
    next (State.reset.withFetchWord 8 0x75) =
      some { State.reset with pc := 1, ir := 0x75, ra := 5, mem := [(0, 0x75)] } := by decide

/-! ### Reset, ports, host -/

/-- R38: an image of three bytes, one of them 0, and one of seventeen bytes. -/
theorem test_image_load :
    Memory.load [0x75, 0, 0xF0] = [(0, 0x75), (2, 0xF0)] ∧
    Memory.load (List.replicate 17 0x50) = Memory.load (List.replicate 16 0x50) := by decide

/-- R111: 253 is written `253`, not `-3`. -/
theorem test_output_lines : outputLines [253, 0] = ["253", "0"] := by decide

theorem test_ports :
    ((small 0 9 false [(0, 0x50)]).ports false 0).outValid = true ∧
    ((small 0 9 false [(0, 0x50)]).ports false 0).outData = 9 ∧
    ((small 0 9 false [(0, 0x60)]).ports false 0).outValid = false ∧
    ({ small 0 9 false [] with run := .faulted ⟨0xB, 2⟩ }.ports false 0).faultOpcode = 0xB := by decide

/-! ### The assembler -/

/-- The image of a token sequence (R60, R66). -/
def imageFrom (mode : SymbolMatch) (ts : List String) : AsmResult (List Byte) :=
  (assembleTokens mode (ts.map ascii)).map imageOf

/-- R61's separators between, before and after tokens, and no other. -/
theorem test_tokenize :
    tokenize [0x20, 0x6C, 0x09, 0x0A, 0x5B, 0x78, 0x5D, 0x00, 0x35, 0x0D] = [[0x6C], ascii "[x]", ascii "5"] := by
  decide

/-- L2-ASM-14 and R71, from the source text. -/
theorem test_assemble_source :
    assembleDefault (ascii "LDA 5") = .ok [] ∧ assembleDefault (ascii "out hlt") = .ok [0x50, 0xF0] := by decide

/-- L1-2 (a forward reference) and L2-ASM-5. -/
theorem test_assemble_references :
    imageFrom .exact ["lda", "[x]", "out", "hlt", "db", "x", "9"] =
      .ok [0x13, 0x50, 0xF0, 0x09] ∧
    imageFrom .exact ["ldi", "[x]", "out", "db", "x", "7"] =
      .ok [0x72, 0x50, 0x07] := by
  decide

/-- L2-ASM-1 to L2-ASM-4 and L2-ASM-11. -/
theorem test_assemble_literals :
    imageFrom .exact ["ldi", "12", "ldi", "0x1F", "lda", "add", "ldi", "db"] =
      .ok [0x72, 0x7F, 0x1D, 0x7B] ∧
    imageFrom .exact ["db", "v", "300", "db", "w", "-1"] = .ok [0x2C, 0xFF] := by decide

/-- L2-ASM-10 and L1-9. -/
theorem test_assemble_symbolMatch :
    imageFrom .exact ["db", "ab", "7", "lda", "[abc]"] = .error .undefinedReference ∧
    imageFrom .byPrefix ["db", "ab", "7", "lda", "[abc]"] = .ok [0x07, 0x10] := by decide

/-- L2-ASM-7, L2-ASM-9, L2-ASM-14 and L2-ASM-16. -/
theorem test_assemble_skips_and_last_match :
    imageFrom .exact [";", "load", "x"] = .ok [] ∧
    imageFrom .exact ["db", "x", "1", "db", "x", "2", "lda", "[x]"] = .ok [0x01, 0x02, 0x11] ∧
    imageFrom .exact ["LDA", "5"] = .ok [] ∧
    imageFrom .exact ["db", "out", "5", "lda", "[out]"] = .ok [0x05, 0x10] := by decide

/-- L2-ASM-8, L2-ASM-12, L2-ASM-13, L2-ASM-15 and L2-ASM-17. -/
theorem test_assemble_errors :
    imageFrom .exact [";", "add", "one"] = .error .badLiteral ∧
    imageFrom .exact ["lda"] = .error .missingOperand ∧
    imageFrom .exact ["db", "x"] = .error .missingOperand ∧
    imageFrom .exact ["lda", "[x"] = .error .malformedReference ∧
    imageFrom .exact ["lda", "[]"] = .error .malformedReference ∧
    imageFrom .exact ["lda", "[x]y", "db", "x", "1"] = .error .malformedReference ∧
    imageFrom .exact ["ldi", "g"] = .error .badLiteral := by decide

/-- L2-ASM-18 and L2-ASM-19's bound, at the 16th and the 17th byte. -/
theorem test_assemble_capacity :
    assembleTokens .exact (List.replicate 17 (ascii "out")) = .error .overCapacity ∧
    (assembleTokens .exact (List.replicate 16 (ascii "out"))).toOption.isSome = true ∧
    resolveOperand .exact [([0x78], 16)] (ascii "[x]") = .error .overCapacity ∧
    resolveOperand .exact [([0x78], 15)] (ascii "[x]") = .ok 15 := by decide

/-! ### Witnesses: states and operands that meet the hypotheses of the obligations -/

theorem witness_IllegalByte_boundaries :
    IllegalByte 0x00#8 ∧ IllegalByte 0x0F#8 ∧ ¬ IllegalByte 0x10#8 ∧ ¬ IllegalByte 0x8F#8 ∧
    IllegalByte 0x90#8 ∧ IllegalByte 0xEF#8 ∧ ¬ IllegalByte 0xF0#8 := by
  unfold IllegalByte; decide

theorem witness_OpcodeMapIsComplete :
    (∀ n : Fin 16, (BitVec.ofNat 8 (16 * n.val)).toNat / 16 = n.val) ∧
    (∀ n : Fin 16, (BitVec.ofNat 8 (16 * n.val + 15)).toNat / 16 = n.val) := by decide

theorem witness_EncoderAndDecoderAreInverse : decode [0x75#8, 0x50#8] = .instr (.ldi 5#4) [0x50#8] := by decide

theorem witness_StepRunsTheDecodedInstruction :
    (small 15 9 false [(15, 0x50)]).run = .running ∧
    decode [(small 15 9 false [(15, 0x50)]).nextByte] = .instr (.out 0#4) [] := by
  unfold State.nextByte; decide

/-- For the statements about every running state. -/
theorem witness_running : State.reset.run = .running := rfl

/-- For the statements about a stopped core. -/
theorem witness_stopped : { State.reset with run := .halted }.run ≠ .running ∧
    { State.reset with run := .faulted ⟨0, 0⟩ }.run ≠ .running := by decide

/-- A `jc` that is not taken, at address 15. -/
theorem witness_PcWrapsFromFifteenToZero :
    (small 15 0 false [(15, 0x80)]).run = .running ∧ (small 15 0 false [(15, 0x80)]).pc.toNat % 16 = 15 ∧
    (small 15 0 false [(15, 0x80)]).nextByte.toNat / 16 ≠ 0xF ∧
    (small 15 0 false [(15, 0x80)]).nextByte.toNat / 16 ≠ 0x6 ∧
    ¬ ((small 15 0 false [(15, 0x80)]).nextByte.toNat / 16 = 0x8 ∧
      (small 15 0 false [(15, 0x80)]).c = true) ∧
    ¬ IllegalByte (small 15 0 false [(15, 0x80)]).nextByte := by
  unfold IllegalByte State.nextByte; decide

theorem witness_PcStaysBelowSixteen :
    (small 15 0 false [(15, 0x50)]).pc.toNat < 16 ∧ lowNibble 0xAF#8 = lowNibble (small 15 0 false []).pc ∧
    ∃ t, Host.Core.run Sys2Proof.core 2 (small 15 0 false [(15, 0x50)]) = .next t :=
  ⟨by decide, by decide, _, rfl⟩

theorem witness_RunStateTransitions :
    IllegalByte (small 0 0 false [(0, 0x0F)]).nextByte ∧ IllegalByte (small 0 0 false [(0, 0x90)]).nextByte ∧
    IllegalByte (small 0 0 false [(0, 0xEF)]).nextByte ∧
    (small 0 0 false [(0, 0xF0)]).nextByte.toNat / 16 = 0xF ∧
    ¬ IllegalByte (small 0 0 false [(0, 0x8F)]).nextByte ∧
    (small 0 0 false [(0, 0x8F)]).nextByte.toNat / 16 ≠ 0xF := by
  unfold IllegalByte State.nextByte; decide

/-- For the rule of each instruction: a running state that fetches it, at the ends of the operand's range. -/
theorem witness_Fetches :
    Fetches (small 0 0 false [(0, 0x17)]) 0x1 7#4 ∧ Fetches (small 0 0 false [(0, 0x2F)]) 0x2 15#4 ∧
    Fetches (small 0 0 false [(0, 0x30)]) 0x3 0#4 ∧ Fetches (small 15 0 false [(15, 0x4F)]) 0x4 15#4 ∧
    Fetches (small 0 0 false [(0, 0x5C)]) 0x5 12#4 ∧ Fetches (small 3 0 false [(3, 0x6F)]) 0x6 15#4 ∧
    Fetches (small 0 0 false [(0, 0x7F)]) 0x7 15#4 ∧ Fetches (small 3 0 true [(3, 0x80)]) 0x8 0#4 ∧
    Fetches (small 3 0 false [(3, 0x86)]) 0x8 6#4 ∧ Fetches (small 2 0 false [(2, 0xFA)]) 0xF 10#4 := by
  unfold Fetches State.nextByte; decide

theorem witness_JumpToItselfRunsForever :
    Fetches (small 3 0 false [(3, 0x63)]) 0x6 (lowNibble (small 3 0 false [(3, 0x63)]).pc) := by
  unfold Fetches State.nextByte; decide

theorem witness_CarryIsWrittenByAddAndReadByJc :
    (small 0 0 false [(0, 0x7F)]).run = .running ∧ (small 0 0 false [(0, 0x7F)]).nextByte.toNat / 16 ≠ 0x8 := by
  unfold State.nextByte; decide

theorem witness_RbIsWrittenByAddAndSubAndNeverRead :
    (small 0 0 false [(0, 0x2F)]).nextByte.toNat / 16 = 0x2 ∧
    (small 0 0 false [(0, 0x30)]).nextByte.toNat / 16 = 0x3 := by
  unfold State.nextByte; decide

theorem witness_OutputStreamGrowsOnlyByOut :
    ∃ t, Host.Core.run Sys2Proof.core 1 (small 0 9 false [(0, 0x50)]) = .next t ∧ t.out = [9] :=
  ⟨_, rfl, rfl⟩

theorem witness_IllegalOpcodesRaiseTheFault :
    (small 15 0 false [(15, 0xA3)]).run = .running ∧ IllegalByte (small 15 0 false [(15, 0xA3)]).nextByte ∧
    (Instr.lda 0#4).WellFormed = true ∧
    ∃ t, exec (.lda 0#4) { State.reset with run := .faulted ⟨0, 0⟩ } = .next t ∧ t.run = .faulted ⟨0, 0⟩ := by
  refine ⟨rfl, ?_, rfl, _, rfl, rfl⟩
  unfold IllegalByte State.nextByte; decide

theorem witness_MemoryAccessesOfACycle :
    (small 0 0 false [(0, 0x17)]).run = .running ∧ (15 : Nat) < 16 ∧
    (15 : Nat) ≠ (small 0 0 false [(0, 0x17)]).pc.toNat % 16 ∧
    (15 : Nat) ≠ (lowNibble (small 0 0 false [(0, 0x17)]).nextByte).toNat := by
  unfold State.nextByte; decide

/-- The next instruction's own cell, and a later fetch of the stored cell. -/
theorem witness_StoreIsSeenByTheNextFetch :
    (small 15 0x50 false [(15, 0x40)]).run = .running ∧ Fetches (small 15 0x50 false [(15, 0x40)]) 0x4 0#4 ∧
    (0#4 : Nibble).toNat = ((small 15 0x50 false [(15, 0x40)]).pc.toNat + 1) % 16 := by
  unfold Fetches State.nextByte; decide

theorem witness_CanonicalMemoryIsItsBytes :
    Memory.wf [(0, 0x75), (15, 0xF0)] = true ∧ Memory.wf [(15, 1), (0, 1)] = false ∧
    Memory.wf [(0, 0)] = false ∧ Memory.wf [(16, 1)] = false := by decide

theorem witness_ResetInputReloadsEverything : (List.replicate 16 (0x50 : Byte)).length = 16 := by decide

/-- The invariant holds at a halted and at a faulted state too. -/
theorem witness_ClockEdgeKeepsTheInvariant :
    State.Inv { State.reset with pc := 1, ir := 0xF0, mem := [(0, 0xF0)], run := .halted } ∧
    State.Inv { State.reset with pc := 1, run := .faulted ⟨0, 0⟩ } := by
  unfold State.Inv RunStateAgrees StoppedAtMar; decide

theorem witness_IrMarAndRbAreUnobservable :
    SameVisible State.reset { State.reset with ir := 0x75, mar := 3, rb := 9 } ∧
    ∃ t, Host.Core.run Sys2Proof.core 1 State.reset = .next t :=
  ⟨⟨rfl, rfl, rfl, rfl, rfl, rfl⟩, _, rfl⟩

theorem witness_PortsReportOutputAndStatus :
    ∃ t, step (small 0 9 false [(0, 0x50)]) = .next t ∧ t.out = [9] := ⟨_, rfl, rfl⟩

theorem witness_TokensAreMaximalRuns :
    tokenize (ascii " lda  5 ") = [ascii "lda", ascii "5"] ∧ isSeparator 0x00#8 = true ∧
    isSeparator 0x08#8 = false ∧ isSeparator 0x0D#8 = true ∧ isSeparator 0x0E#8 = false := by decide

theorem witness_assembler_passes :
    passOne 0 [] [ascii "lda", ascii "[x]", ascii "db", ascii "x", ascii "9"] = .ok [([0x78], 1)] ∧
    passTwo .exact [([0x78], 1)] 0 [ascii "lda", ascii "[x]", ascii "db", ascii "x", ascii "9"] =
      .ok [.code .lda 1, .data [0x78] 9] := by decide

theorem witness_references :
    isReference (ascii "[x]") = true ∧ referenceName (ascii "[x]") = some [0x78] ∧
    lookupName .exact [0x78] [([0x78], 15)] = some 15 ∧ lookupName .exact [0x78] [([0x78], 16)] = some 16 ∧
    lookupName .exact [0x78] [([0x79], 3)] = none ∧ isReference (ascii "[x") = true ∧
    referenceName (ascii "[x") = none := by decide

/-- A token that begins with `[` and is no reference: `[` alone. -/
theorem witness_ReferenceFormIsChecked :
    isReference [0x5B#8] = true ∧
    ∀ name : Token, name ≠ [] → ([0x5B#8] : Token) ≠ 0x5B#8 :: (name ++ [0x5D#8]) :=
  ⟨by decide, fun name _ => by simp⟩

theorem witness_literals :
    hexNibble (ascii "0X1f") = some 15 ∧ decimalByte (ascii "-1") = some 255 ∧
    decimalByte (ascii "300") = some 44 := by decide

/-- R62: matching is case-sensitive and byte for byte, so neither spells a keyword; the empty text (R61). -/
theorem witness_NotAKeyword : NotAKeyword (ascii "LDA") ∧ NotAKeyword (ascii "jcx") ∧
    ¬ NotAKeyword (ascii "jc") ∧ ¬ NotAKeyword (ascii "db") ∧ tokenize [] = [] := by
  unfold NotAKeyword
  decide

/-- The premises on operands and values: each answer of `resolveOperand` and of `decimalByte` occurs. -/
theorem witness_operands :
    (ascii "g").head? ≠ some 0x5B#8 ∧ hexNibble (ascii "g") = none ∧ hexNibble (ascii "5") = some 5 ∧
    resolveOperand .exact [] (ascii "f") = .ok 15 ∧
    resolveOperand .exact [] (ascii "[x]") = .error .undefinedReference ∧
    decimalByte (ascii "-") = none ∧ decimalByte [] = none ∧ decimalByte (ascii "255") = some 255 := by decide

/-- The premises on what follows an emission, at the last offset with room: success and error. -/
theorem witness_passTwo_rest :
    passTwo .exact [] (15 + 1) [ascii "skipped"] = .ok [] ∧
    passTwo .exact [] (0 + 1) [ascii "lda", ascii "g"] = .error .badLiteral ∧
    passTwo .exact [] 15 [ascii "lda", ascii "f", ascii "skipped"] = .ok [.code .lda 15] ∧
    passTwo .exact [] 16 [ascii "lda", ascii "f"] = .error .overCapacity ∧
    passTwo .exact [] 15 [ascii "db", ascii "out", ascii "5"] = .ok [.data (ascii "out") 5] := by decide

/-- The premises on both passes over a source text: pass one fails, pass two fails, both succeed. -/
theorem witness_passes_of_a_text :
    passOne 0 [] (tokenize (ascii "lda")) = .error .missingOperand ∧
    passOne 0 [] (tokenize (ascii "hlt")) = .ok [] ∧
    passTwo .exact [] 0 (tokenize (ascii "hlt")) = .ok [.code .hlt 0] ∧
    assemble .exact (ascii "hlt") = .ok [0xF0] := by decide

theorem witness_passTwo_fails_after_passOne :
    passOne 0 [] (tokenize (ascii "lda g")) = .ok [] ∧
    passTwo .exact [] 0 (tokenize (ascii "lda g")) = .error .badLiteral := by decide

end Sys2Proof.Tests
end

section
/-! SUPPORT. The state family: what reset loads, and where a cycle leaves PC and the run state. -/

namespace Sys2Proof

/-! ### The fields of a decoded byte -/

theorem decodeFields_opcode (op x : Nibble) :
    (decodeFields (op.getLsbD 3) (op.getLsbD 2) (op.getLsbD 1) (op.getLsbD 0) x).opcode = op := by
  revert op x; decide

theorem decodeFields_operand (b7 b6 b5 b4 : Bool) (x : Nibble) :
    (decodeFields b7 b6 b5 b4 x).operand = x := by
  unfold decodeFields
  split <;> rfl

@[simp] theorem decodeByte_opcode (b : Byte) : (decodeByte b).opcode = highNibble b := by
  rw [decodeByte_eq, decodeFields_opcode]

@[simp] theorem decodeByte_operand (b : Byte) : (decodeByte b).operand = lowNibble b :=
  decodeFields_operand ..

theorem Instr.wellFormed_eq_false_iff (i : Instr) :
    i.WellFormed = false ↔ i.opcode.toNat = 0 ∨ (9 ≤ i.opcode.toNat ∧ i.opcode.toNat ≤ 14) := by
  cases i <;> simp [Instr.WellFormed, Instr.opcode]

end Sys2Proof

namespace Sys2Proof.Machine

/-- A byte is illegal exactly when it decodes to one of the seven illegal rows (R54). -/
theorem decodeByte_wellFormed_eq_false_iff (b : Byte) :
    (decodeByte b).WellFormed = false ↔ IllegalByte b := by
  rw [Instr.wellFormed_eq_false_iff, decodeByte_opcode, highNibble_toNat, IllegalByte]

/-! ### Fetch and increment, as numbers -/

theorem State.fetchIncrement_ir_eq_nextByte (s : State) : s.fetchIncrement.ir = s.nextByte := by
  rw [State.fetchIncrement_ir, State.fetchAddress, lowNibble_toNat, State.nextByte]

theorem State.fetchIncrement_pc_toNat (s : State) :
    s.fetchIncrement.pc.toNat = (s.pc.toNat + 1) % 16 := by
  rw [State.fetchIncrement_pc, zext8_toNat, BitVec.toNat_add, State.fetchAddress, lowNibble_toNat]
  simp

/-! ### PC and the run state after an execute phase and after a cycle -/

/-- The execute phase of opcode `op` writes PC: `jmp`, and `jc` with the carry `c` set (R96, R97). -/
def takesJump (op : Nat) (c : Bool) : Bool := op == 0x6 || (op == 0x8 && c)

theorem takesJump_iff (op : Nat) (c : Bool) :
    takesJump op c = true ↔ op = 0x6 ∨ (op = 0x8 ∧ c = true) := by
  simp [takesJump]

/-- What the execute phase of a defined instruction does to PC and the run state (R18, R27). -/
theorem exec_wellFormed_pc_run (i : Instr) (s : State) (defined : i.WellFormed = true) :
    ∃ t, exec i s = .next t ∧
      t.pc = (if takesJump i.opcode.toNat s.c then jumpTarget i.operand else s.pc) ∧
      t.run = (if i.opcode.toNat = 0xF then .halted else s.run) := by
  cases i with
  | lda x => exact ⟨_, exec_lda x s, rfl, rfl⟩
  | add x => exact ⟨_, exec_add x s, rfl, rfl⟩
  | sub x => exact ⟨_, exec_sub x s, rfl, rfl⟩
  | sta x => exact ⟨_, exec_sta x s, rfl, rfl⟩
  | out n => exact ⟨_, exec_out n s, rfl, rfl⟩
  | jmp x => exact ⟨_, exec_jmp x s, rfl, rfl⟩
  | ldi x => exact ⟨_, exec_ldi x s, rfl, rfl⟩
  | jc x => exact ⟨_, exec_jc x s, rfl, rfl⟩
  | hlt n => exact ⟨_, exec_hlt n s, rfl, rfl⟩
  | illegal0 _ | illegal9 _ | illegalA _ | illegalB _ | illegalC _ | illegalD _ | illegalE _ =>
    cases defined

/-- A running core's cycle on an illegal byte writes the run state alone after fetch and increment (R102). -/
theorem step_illegalByte (s : State) (running : s.run = .running) (illegal : IllegalByte s.nextByte) :
    step s = .next (s.fetchIncrement.setRun (.faulted ⟨highNibble s.nextByte, s.fetchAddress⟩)) := by
  rw [step_running s running, State.fetchIncrement_ir_eq_nextByte, exec_of_not_wellFormed _ _
    ((decodeByte_wellFormed_eq_false_iff _).mpr illegal), decodeByte_opcode]
  rfl

/-- PC and the run state after a running core's cycle on a defined byte (R18, R27). -/
theorem step_definedByte_pc_run (s : State) (running : s.run = .running)
    (defined : ¬ IllegalByte s.nextByte) :
    ∃ t, step s = .next t ∧
      t.pc.toNat = (if takesJump (s.nextByte.toNat / 16) s.c then s.nextByte.toNat % 16
        else (s.pc.toNat + 1) % 16) ∧
      t.run = (if s.nextByte.toNat / 16 = 0xF then .halted else .running) := by
  have wellFormed : (decodeByte s.nextByte).WellFormed = true := by
    rwa [← Bool.not_eq_false, decodeByte_wellFormed_eq_false_iff]
  obtain ⟨t, executed, pc, run⟩ := exec_wellFormed_pc_run _ s.fetchIncrement wellFormed
  simp only [decodeByte_opcode, decodeByte_operand, highNibble_toNat, State.fetchIncrement_c,
    State.fetchIncrement_run, running] at pc run
  refine ⟨t, ?_, ?_, run⟩
  · rw [step_running s running, State.fetchIncrement_ir_eq_nextByte, executed]
  · rw [pc, apply_ite BitVec.toNat, jumpTarget_toNat, lowNibble_toNat, State.fetchIncrement_pc_toNat]

/-- Settles O9: only an illegal byte faults, and PC's increment past 15 is 0 (R19). -/
theorem pcWrapsFromFifteenToZero : Obligations.PcWrapsFromFifteenToZero := by
  refine ⟨fun s running => ?_, fun s running atFifteen defined notHlt notJmp notJc => ?_⟩
  · by_cases illegal : IllegalByte s.nextByte
    · exact ⟨_, step_illegalByte s running illegal, fun defined => absurd illegal defined⟩
    · obtain ⟨t, stepped, -, run⟩ := step_definedByte_pc_run s running illegal
      refine ⟨t, stepped, fun _ => ?_⟩
      rw [run]
      split <;> rfl
  · obtain ⟨t, stepped, pc, run⟩ := step_definedByte_pc_run s running defined
    rw [if_neg (mt (takesJump_iff ..).mp (not_or.mpr ⟨notJmp, notJc⟩))] at pc
    exact ⟨t, stepped, by omega, by rw [run, if_neg notHlt]⟩

/-! ### The image loaded at reset -/

/-- Each cell after loading an image: its byte, 0 past the image, the bytes past 16 discarded (R38). -/
theorem Memory.read_load (image : List Byte) (a : Nat) (low : a < 16) :
    Memory.read (Memory.load image) a = image.getD a 0 := by
  have length_take : (image.take Config.memorySize).length = min 16 image.length := List.length_take
  rw [Memory.load, Memory.read_loadFrom _ 0 a [] (by omega) low, Nat.sub_zero]
  by_cases inImage : a < image.length
  · rw [if_pos (by omega), List.getD_eq_getElem?_getD, List.getD_eq_getElem?_getD,
      List.getElem?_take_of_lt (show a < Config.memorySize from low)]
  · rw [if_neg (by omega), List.getD_eq_default _ _ (by omega)]
    rfl

/-- Settles O33: the registers by the laws of `State.resetWith`, the cells by `Memory.read_load`. -/
theorem resetLoadsTheImage : Obligations.ResetLoadsTheImage :=
  fun image => ⟨State.resetWith_run image, State.resetWith_pc image, State.resetWith_ir image,
    State.resetWith_mar image, State.resetWith_ra image, State.resetWith_rb image,
    State.resetWith_c image, State.resetWith_out image, Memory.read_load image⟩

end Sys2Proof.Machine
end

section
/-! SUPPORT. The data transfer family: the cycle on a byte that a `Fetches` premise names, and what `lda`,
`sta` and `ldi` do in it. -/

namespace Sys2Proof

/-- Decoding the byte of an instruction gives the instruction back (R59). -/
@[simp] theorem decodeByte_encodeByte (i : Instr) : decodeByte (encodeByte i) = i := by
  rw [encodeByte, decodeByte_packNibbles]
  cases i <;> simp [Instr.opcode, Instr.operand, decodeFields]

end Sys2Proof

namespace Sys2Proof.Machine

/-! ### The cycle on a fetched instruction -/

/-- A state that fetches an instruction's opcode and operand fetches that instruction's byte (R48). -/
theorem nextByte_eq_encodeByte (s : State) (i : Instr) (fetches : Fetches s i.opcode.toNat i.operand) :
    s.nextByte = encodeByte i := by
  apply BitVec.eq_of_toNat_eq
  rw [fetches, encodeByte, packNibbles_toNat, Nat.mul_comm]

/-- A running core that fetches an instruction's byte executes that instruction after fetch and increment
(R49, R84). -/
theorem step_of_fetches (s : State) (i : Instr) (running : s.run = .running)
    (fetches : Fetches s i.opcode.toNat i.operand) : step s = exec i s.fetchIncrement := by
  rw [step_running s running, State.fetchIncrement_ir_eq_nextByte, nextByte_eq_encodeByte s i fetches,
    decodeByte_encodeByte]

/-! ### Cells and operand addresses -/

theorem SameMemory.of_mem_eq {s t : State} (mem : t.mem = s.mem) : SameMemory s t :=
  fun a _ => by rw [mem]

/-- The cells below 16 after a write at an operand address (R34, R37). -/
theorem Memory.read_write_operandAddress (m : Memory) (x : Nibble) (v : Byte) (a : Nat) (low : a < 16) :
    Memory.read (Memory.write m (operandAddress x) v) a =
      if a = operandAddress x then v else Memory.read m a := by
  have xLow : operandAddress x < 16 := x.isLt
  rw [Memory.read_write, Nat.mod_eq_of_lt low, Nat.mod_eq_of_lt xLow]

/-! ### The three instructions -/

/-- Settles O13: the step is `exec_lda` on the state after fetch and increment. -/
theorem ldaLoadsTheAddressedByte : Obligations.LdaLoadsTheAddressedByte := by
  refine ⟨fun x s => ⟨_, exec_lda x s, rfl, rfl, rfl, rfl, rfl, rfl, .of_mem_eq rfl⟩,
    fun x s running fetches => ?_⟩
  have stepped := (step_of_fetches s (.lda x) running fetches).trans (exec_lda x s.fetchIncrement)
  exact ⟨_, stepped, rfl, s.fetchIncrement_pc_toNat, rfl, rfl, running, rfl, .of_mem_eq rfl⟩

/-- Settles O14: the step is `exec_sta` on the state after fetch and increment, and
`Memory.read_write_operandAddress` gives the cells. -/
theorem staStoresTheAccumulator : Obligations.StaStoresTheAccumulator := by
  refine ⟨fun x s => ⟨_, exec_sta x s, Memory.read_write_operandAddress s.mem x s.ra,
    rfl, rfl, rfl, rfl, rfl, rfl⟩, fun x s running fetches => ?_⟩
  have stepped := (step_of_fetches s (.sta x) running fetches).trans (exec_sta x s.fetchIncrement)
  exact ⟨_, stepped, Memory.read_write_operandAddress s.mem x s.ra, s.fetchIncrement_ir_eq_nextByte,
    s.fetchIncrement_pc_toNat, rfl, rfl, rfl, running, rfl⟩

/-- Settles O15: the step is `exec_ldi` on the state after fetch and increment, and `immediate_toNat` gives
the number. -/
theorem ldiLoadsTheImmediate : Obligations.LdiLoadsTheImmediate := by
  refine ⟨fun x s => ⟨_, exec_ldi x s, immediate_toNat x, rfl, rfl, rfl, rfl, rfl, .of_mem_eq rfl⟩,
    fun x s running fetches => ?_⟩
  have stepped := (step_of_fetches s (.ldi x) running fetches).trans (exec_ldi x s.fetchIncrement)
  exact ⟨_, stepped, immediate_toNat x, s.fetchIncrement_pc_toNat, rfl, rfl, running, rfl,
    .of_mem_eq rfl⟩

end Sys2Proof.Machine
end

section
/-! SUPPORT. The arithmetic family: the ALU's operations as numbers (R91), and what `add` does. -/

namespace Sys2Proof.Machine

/-! ### The ALU over unbounded integers -/

@[simp] theorem add8_toNat (p q : Byte) : (add8 p q).toNat = (p.toNat + q.toNat) % 256 :=
  BitVec.toNat_ofNat ..

@[simp] theorem carryOut_iff (p q : Byte) : carryOut p q = true ↔ 256 ≤ p.toNat + q.toNat :=
  decide_eq_true_iff

/-- The carry's second form: the operand exceeds the room left above the accumulator (R91). -/
theorem carryOut_iff_gt (p q : Byte) : carryOut p q = true ↔ q.toNat > 255 - p.toNat := by
  have pByte : p.toNat < 256 := p.isLt
  rw [carryOut_iff]
  omega

@[simp] theorem sub8_toNat (p q : Byte) :
    ((sub8 p q).toNat : Int) = ((p.toNat : Int) - (q.toNat : Int)) % 256 := by
  have nonneg : 0 ≤ ((p.toNat : Int) - (q.toNat : Int)) % 256 := Int.emod_nonneg _ (by decide)
  rw [sub8, BitVec.toNat_ofInt]
  exact Int.toNat_of_nonneg nonneg

/-- Settles O16: one law per operation, and the carry's two forms. -/
theorem aluOperations : Obligations.AluOperations :=
  fun p q => ⟨add8_toNat p q, carryOut_iff p q, carryOut_iff_gt p q, sub8_toNat p q⟩

/-! ### `add` -/

/-- Settles O17: the step is `exec_add` on the state after fetch and increment, and `add8_toNat` gives the
sum. -/
theorem addSumsAndSetsCarry : Obligations.AddSumsAndSetsCarry := by
  refine ⟨fun x s => ⟨_, exec_add x s, rfl, add8_toNat .., rfl, rfl, rfl, rfl, .of_mem_eq rfl⟩,
    fun x s running fetches => ?_⟩
  have stepped := (step_of_fetches s (.add x) running fetches).trans (exec_add x s.fetchIncrement)
  exact ⟨_, stepped, rfl, add8_toNat .., rfl, s.fetchIncrement_pc_toNat, running, rfl, .of_mem_eq rfl⟩

end Sys2Proof.Machine
end

section
/-! SUPPORT. The control transfer family: where `jmp` and `jc` leave PC, as a number. -/

namespace Sys2Proof.Machine

/-- Settles O22: the step is `exec_jmp` on the state after fetch and increment, and `jumpTarget_toNat` gives
the target. -/
theorem jmpGoesToItsTarget : Obligations.JmpGoesToItsTarget := by
  refine ⟨fun x s => ⟨_, exec_jmp x s, jumpTarget_toNat x, rfl, rfl, rfl, rfl, rfl, .of_mem_eq rfl⟩,
    fun x s running fetches => ?_⟩
  have stepped := (step_of_fetches s (.jmp x) running fetches).trans (exec_jmp x s.fetchIncrement)
  exact ⟨_, stepped, jumpTarget_toNat x, rfl, rfl, rfl, running, rfl, .of_mem_eq rfl⟩

/-- The value `exec_jc` gives PC, as a number: the operand if the carry is set, the old PC otherwise (R97). -/
theorem ite_jumpTarget_toNat (c : Bool) (x : Nibble) (pc : Byte) :
    (if c = true then jumpTarget x else pc).toNat = if c = true then x.toNat else pc.toNat := by
  rw [apply_ite BitVec.toNat, jumpTarget_toNat]

/-- Settles O23: the step is `exec_jc` on the state after fetch and increment, which keeps C;
`ite_jumpTarget_toNat` gives both cases of PC. -/
theorem jcJumpsWhenCarryIsSet : Obligations.JcJumpsWhenCarryIsSet := by
  refine ⟨fun x s => ⟨_, exec_jc x s, ite_jumpTarget_toNat s.c x s.pc, rfl, rfl, rfl, rfl, rfl,
    .of_mem_eq rfl⟩, fun x s running fetches => ?_⟩
  have stepped := (step_of_fetches s (.jc x) running fetches).trans (exec_jc x s.fetchIncrement)
  have target := ite_jumpTarget_toNat s.c x s.fetchIncrement.pc
  rw [State.fetchIncrement_pc_toNat] at target
  exact ⟨_, stepped, target, rfl, rfl, rfl, running, rfl, .of_mem_eq rfl⟩

end Sys2Proof.Machine
end

section
/-! SUPPORT. The exceptions family: which execute phases end in the run state `Faulted`. -/

namespace Sys2Proof.Machine

/-- The execute phase of an illegal row writes the run state alone, with the row's own opcode (R102). -/
theorem exec_illegal (i : Instr) (s : State) (illegal : i.WellFormed = false) :
    exec i s = .next (s.setRun (.faulted ⟨i.opcode, s.mar⟩)) :=
  exec_of_not_wellFormed i s illegal

/-- A defined instruction halts or keeps the run state, so a fault after it was there before it (R102). -/
theorem faulted_before_exec_wellFormed (i : Instr) (s t : State) (r : FaultRecord)
    (defined : i.WellFormed = true) (executed : exec i s = .next t) (faulted : t.run = .faulted r) :
    s.run = .faulted r := by
  obtain ⟨u, executed', -, run⟩ := exec_wellFormed_pc_run i s defined
  obtain rfl : t = u := Host.Outcome.next.inj (executed.symm.trans executed')
  rw [run] at faulted
  split at faulted
  · cases faulted
  · exact faulted

/-- Settles O28: `exec_illegal` for the seven rows, `step_illegalByte` for the cycle, and
`faulted_before_exec_wellFormed` for the defined instructions. -/
theorem illegalOpcodesRaiseTheFault : Obligations.IllegalOpcodesRaiseTheFault := by
  refine ⟨fun n s p listed => ?_, fun s running illegal => ?_, faulted_before_exec_wellFormed⟩
  · have row : p.1.WellFormed = false ∧ p.1.opcode = p.2 := by
      simp only [List.mem_cons, List.not_mem_nil, or_false] at listed
      rcases listed with rfl | rfl | rfl | rfl | rfl | rfl | rfl <;> exact ⟨rfl, rfl⟩
    obtain ⟨illegal, opcode⟩ := row
    have executed := exec_illegal p.1 s illegal
    rw [opcode] at executed
    exact ⟨_, executed, rfl, rfl, rfl, rfl, rfl, rfl, rfl, rfl, .of_mem_eq rfl⟩
  · exact ⟨_, step_illegalByte s running illegal, rfl, RunState.noConfusion, rfl, rfl, rfl, rfl,
      .of_mem_eq rfl⟩

end Sys2Proof.Machine
end

section
/-! SUPPORT. The encoding: the decoder as the inverse of the encoder, and the opcode map. -/

namespace Sys2Proof

@[simp] theorem encodeByte_toNat (i : Instr) :
    (encodeByte i).toNat = i.opcode.toNat * 16 + i.operand.toNat := packNibbles_toNat ..

/-- Encoding what a byte decodes to gives the byte back (R59). -/
@[simp] theorem encodeByte_decodeByte (b : Byte) : encodeByte (decodeByte b) = b := by
  apply BitVec.eq_of_toNat_eq
  rw [encodeByte_toNat, decodeByte_opcode, decodeByte_operand, highNibble_toNat, lowNibble_toNat]
  omega

/-- The two nibbles of a byte select the instruction it decodes to (R49, R53). -/
theorem decode_of_fields (b : Byte) (rest : List Byte) (i : Instr)
    (opcode : b.toNat / 16 = i.opcode.toNat) (operand : lowNibble b = i.operand) :
    decode (b :: rest) = .instr i rest := by
  have byte : b = encodeByte i := by
    apply BitVec.eq_of_toNat_eq
    rw [encodeByte_toNat, ← opcode, ← operand, lowNibble_toNat]
    omega
  rw [decode, byte, decodeByte_encodeByte]

/-- The decoder answers an instruction exactly on a byte that is its encoding (R57, R59). -/
theorem decode_cons_eq_instr_iff (b : Byte) (bs rest : List Byte) (i : Instr) :
    decode (b :: bs) = .instr i rest ↔ encodeByte i = b ∧ rest = bs := by
  rw [decode, Decoded.instr.injEq]
  constructor
  · rintro ⟨rfl, rfl⟩
    exact ⟨encodeByte_decodeByte b, rfl⟩
  · rintro ⟨rfl, rfl⟩
    exact ⟨decodeByte_encodeByte i, rfl⟩

end Sys2Proof

namespace Sys2Proof.Machine

/-- Settles O3: `decodeByte_encodeByte` and `encodeByte_decodeByte`, and the fields of a decoded byte. -/
theorem encoderAndDecoderAreInverse : Obligations.EncoderAndDecoderAreInverse := by
  refine ⟨encodeByte_toNat, fun i rest => ?_, fun b bs rest i decoded => ?_, fun b =>
    ⟨decodeByte_opcode b, decodeByte_operand b, decodeByte_wellFormed_eq_false_iff b⟩⟩
  · exact (decode_cons_eq_instr_iff ..).mpr ⟨rfl, rfl⟩
  · obtain ⟨byte, restEq⟩ := (decode_cons_eq_instr_iff ..).mp decoded
    exact ⟨congrArg ([·]) byte, restEq⟩

/-- Settles O2: each opcode value by `decode_of_fields`. -/
theorem opcodeMapIsComplete : Obligations.OpcodeMapIsComplete := by
  intro b rest
  have byte : b.toNat < 256 := b.isLt
  have select := decode_of_fields b rest
  exact ⟨(select (.illegal0 _) · rfl), (select (.lda _) · rfl), (select (.add _) · rfl),
    (select (.sub _) · rfl), (select (.sta _) · rfl), (select (.out _) · rfl), (select (.jmp _) · rfl),
    (select (.ldi _) · rfl), (select (.jc _) · rfl), (select (.illegal9 _) · rfl),
    (select (.illegalA _) · rfl), (select (.illegalB _) · rfl), (select (.illegalC _) · rfl),
    (select (.illegalD _) · rfl), (select (.illegalE _) · rfl), (select (.hlt _) · rfl), by omega⟩

/-- Settles O1: the decoder evaluated on each of the written-out lists. -/
theorem decodeOfWrittenOutBytes : Obligations.DecodeOfWrittenOutBytes := by
  unfold Obligations.DecodeOfWrittenOutBytes
  decide

end Sys2Proof.Machine
end

section
/-! SUPPORT. What a cycle does: the state after an execute phase and after a cycle, field by field, from which
the statements about every cycle are read off. -/

namespace Sys2Proof.Machine

/-! ### The state after an execute phase -/

/-- PC after the execute phase: written by a jump that is taken (R18). -/
def nextPc (op : Nat) (x : Nibble) (c : Bool) (pc : Byte) : Byte :=
  if takesJump op c then jumpTarget x else pc

/-- The accumulator after the execute phase: written by `lda`, `add`, `sub` and `ldi` (R13). -/
def nextRa (op : Nat) (x : Nibble) (ra loaded : Byte) : Byte :=
  if op = 0x1 then loaded
  else if op = 0x2 then add8 ra loaded
  else if op = 0x3 then sub8 ra loaded
  else if op = 0x7 then immediate x
  else ra

/-- The run state after the execute phase of `i`: `hlt` halts and the illegal rows fault (R27). -/
def nextRun (i : Instr) (mar : Nibble) (run : RunState) : RunState :=
  if i.WellFormed then if i.opcode.toNat = 0xF then .halted else run else .faulted ⟨i.opcode, mar⟩

/-- The state after the execute phase of `i` (R88-R102), field by field in terms of the opcode and the operand. -/
def State.after (s : State) (i : Instr) : State :=
  { s with
    pc := nextPc i.opcode.toNat i.operand s.c s.pc
    ra := nextRa i.opcode.toNat i.operand s.ra (s.memOperand i.operand)
    rb := if i.opcode.toNat = 0x2 ∨ i.opcode.toNat = 0x3 then s.memOperand i.operand else s.rb
    c := if i.opcode.toNat = 0x2 then carryOut s.ra (s.memOperand i.operand) else s.c
    mem := if i.opcode.toNat = 0x4 then Memory.write s.mem (operandAddress i.operand) s.ra else s.mem
    run := nextRun i s.mar s.run
    out := if i.opcode.toNat = 0x5 then s.out ++ [s.ra] else s.out }

/-- Every execute phase answers a next state, which `State.after` gives (R101). -/
theorem exec_eq_after (i : Instr) (s : State) : exec i s = .next (s.after i) := by
  cases i with
  | lda x => exact exec_lda x s
  | add x => exact exec_add x s
  | sub x => exact exec_sub x s
  | sta x => exact exec_sta x s
  | out n => exact exec_out n s
  | jmp x => exact exec_jmp x s
  | ldi x => exact exec_ldi x s
  | jc x => exact exec_jc x s
  | hlt n => exact exec_hlt n s
  | illegal0 _ | illegal9 _ | illegalA _ | illegalB _ | illegalC _ | illegalD _ | illegalE _ =>
    exact exec_illegal _ s rfl

/-- The state after the cycle that a running core begins in `s` (R84). -/
def State.cycle (s : State) : State := s.fetchIncrement.after (decodeByte s.nextByte)

theorem step_eq_exec_nextByte (s : State) (running : s.run = .running) :
    step s = exec (decodeByte s.nextByte) s.fetchIncrement := by
  rw [step_running s running, State.fetchIncrement_ir_eq_nextByte]

/-- A running core's step answers the state after the cycle. -/
theorem step_eq_cycle (s : State) (running : s.run = .running) : step s = .next s.cycle := by
  rw [step_eq_exec_nextByte s running, exec_eq_after, State.cycle]

/-- Every step answers a next state, of a stopped core too. -/
theorem step_answers (s : State) : ∃ t, step s = .next t := by
  by_cases running : s.run = .running
  · exact ⟨_, step_eq_cycle s running⟩
  · exact ⟨_, step_stopped s running⟩

/-- What a step answers: the state after the cycle of a running core, or the stopped state itself. -/
theorem step_cases {s t : State} (stepped : step s = .next t) :
    (s.run = .running ∧ t = s.cycle) ∨ (s.run ≠ .running ∧ t = s) := by
  by_cases running : s.run = .running
  · exact .inl ⟨running, Host.Outcome.next.inj (stepped.symm.trans (step_eq_cycle s running))⟩
  · exact .inr ⟨running, Host.Outcome.next.inj (stepped.symm.trans (step_stopped s running))⟩

/-! ### The fields after a cycle, in terms of the byte fetched -/

theorem State.cycle_pc_toNat (s : State) :
    s.cycle.pc.toNat = if takesJump (s.nextByte.toNat / 16) s.c then s.nextByte.toNat % 16
      else (s.pc.toNat + 1) % 16 := by
  simp [State.cycle, State.after, nextPc, apply_ite BitVec.toNat, jumpTarget_toNat, zext8_toNat,
    State.fetchAddress]

@[simp] theorem State.cycle_ir (s : State) : s.cycle.ir = s.nextByte := s.fetchIncrement_ir_eq_nextByte

@[simp] theorem State.cycle_rb (s : State) :
    s.cycle.rb = if s.nextByte.toNat / 16 = 0x2 ∨ s.nextByte.toNat / 16 = 0x3 then
      Memory.read s.mem (lowNibble s.nextByte).toNat else s.rb := by
  rw [← highNibble_toNat, ← decodeByte_opcode, ← decodeByte_operand]
  rfl

@[simp] theorem State.cycle_c (s : State) :
    s.cycle.c = if s.nextByte.toNat / 16 = 0x2 then
      carryOut s.ra (Memory.read s.mem (lowNibble s.nextByte).toNat) else s.c := by
  rw [← highNibble_toNat, ← decodeByte_opcode, ← decodeByte_operand]
  rfl

@[simp] theorem State.cycle_mem (s : State) :
    s.cycle.mem = if s.nextByte.toNat / 16 = 0x4 then
      Memory.write s.mem (operandAddress (lowNibble s.nextByte)) s.ra else s.mem := by
  rw [← highNibble_toNat, ← decodeByte_opcode, ← decodeByte_operand]
  rfl

@[simp] theorem State.cycle_out (s : State) :
    s.cycle.out = if s.nextByte.toNat / 16 = 0x5 then s.out ++ [s.ra] else s.out := by
  rw [← highNibble_toNat, ← decodeByte_opcode]
  rfl

end Sys2Proof.Machine
end

section
/-! SUPPORT. Runs of any number of steps: a run of `k + 1` steps is a step and a run of `k`, and what every step
keeps every run keeps. -/

namespace Sys2Proof.Machine

theorem runSteps_succ_iff (k : Nat) (s t : State) :
    runSteps (k + 1) s = .next t ↔ ∃ u, step s = .next u ∧ runSteps k u = .next t := by
  obtain ⟨u, stepped⟩ := step_answers s
  rw [runSteps_succ k s u stepped]
  constructor
  · exact fun ran => ⟨u, stepped, ran⟩
  · rintro ⟨u', stepped', ran⟩
    rwa [Host.Outcome.next.inj (stepped.symm.trans stepped')]

/-- What every step keeps, every run keeps. -/
theorem runSteps_keeps {P : State → Prop} (keeps : ∀ s t, P s → step s = .next t → P t) (k : Nat)
    (s t : State) (holds : P s) (ran : runSteps k s = .next t) : P t := by
  induction k generalizing s with
  | zero =>
    obtain rfl := Host.Outcome.next.inj ran
    exact holds
  | succ k ih =>
    obtain ⟨u, stepped, ran⟩ := (runSteps_succ_iff ..).mp ran
    exact ih u (keeps s u holds stepped) ran

/-- A stopped core answers the same state after any number of steps (R28). -/
theorem runSteps_stopped (k : Nat) (s : State) (stopped : s.run ≠ .running) : runSteps k s = .next s := by
  induction k with
  | zero => rfl
  | succ k ih => rw [runSteps_succ k s s (step_stopped s stopped), ih]

end Sys2Proof.Machine
end

section
/-! SUPPORT. The cycle family: what a step answers, and what it leaves in PC, MAR, IR and the run state. -/

namespace Sys2Proof.Machine

/-- Settles O4: `step_eq_exec_nextByte`, and the fields after fetch and increment. -/
theorem stepRunsTheDecodedInstruction : Obligations.StepRunsTheDecodedInstruction := by
  intro s i rest running decoded
  obtain ⟨byte, -⟩ := (decode_cons_eq_instr_iff ..).mp decoded
  refine ⟨?_, lowNibble_toNat s.pc, s.fetchIncrement_ir_eq_nextByte, s.fetchIncrement_pc_toNat,
    rfl, rfl, rfl, rfl, rfl, rfl⟩
  rw [step_eq_exec_nextByte s running, ← byte, decodeByte_encodeByte]

/-- Settles O5: `step_answers` and `exec_eq_after`. -/
theorem everyStepAnswersANextState : Obligations.EveryStepAnswersANextState :=
  ⟨step_answers, fun i s => ⟨_, exec_eq_after i s⟩⟩

/-- Settles O6: `State.after` writes neither register. -/
theorem executeLeavesFetchRegisters : Obligations.ExecuteLeavesFetchRegisters :=
  fun i s => ⟨_, exec_eq_after i s, rfl, rfl⟩

theorem fetchedFrom_cycle (s : State) : FetchedFrom s s.cycle :=
  ⟨lowNibble_toNat s.pc, s.cycle_ir⟩

/-- Settles O7: by `fetchedFrom_cycle`. -/
theorem cycleLeavesFetchAddressInMar : Obligations.CycleLeavesFetchAddressInMar :=
  fun s running => ⟨_, step_eq_cycle s running, fetchedFrom_cycle s⟩

/-- Settles O8: `State.cycle_pc_toNat`, the two jumps written out by `takesJump_iff`. -/
theorem pcAfterEachInstruction : Obligations.PcAfterEachInstruction := by
  intro s running
  refine ⟨_, step_eq_cycle s running, ?_⟩
  simp only [State.cycle_pc_toNat, takesJump_iff, ite_or]

theorem State.cycle_pc_lt (s : State) : s.cycle.pc.toNat < 16 := by
  rw [State.cycle_pc_toNat]
  split <;> omega

theorem fetchIncrement_setPC_of_lowNibble_eq (s : State) (v : Byte) (same : lowNibble v = lowNibble s.pc) :
    (s.setPC v).fetchIncrement = s.fetchIncrement := by
  simp only [State.fetchIncrement, State.fetch, State.increment, State.fetchAddress, State.setPC_pc, same,
    State.setPC_mem, State.setIR_pc, State.setMAR_pc]
  rfl

/-- Settles O10: a cycle writes a value below 16, a stopped core keeps its PC, and PC is read by fetch and
increment alone. -/
theorem pcStaysBelowSixteen : Obligations.PcStaysBelowSixteen := by
  refine ⟨fun s running => ⟨_, step_eq_cycle s running, s.cycle_pc_lt⟩, fun s v running same => ?_,
    runSteps_keeps (P := fun s => s.pc.toNat < 16) fun s t below stepped => ?_⟩
  · have sameFetch := fetchIncrement_setPC_of_lowNibble_eq s v same
    rw [step_running s running, ← sameFetch]
    exact step_running (s.setPC v) running
  · obtain ⟨-, rfl⟩ | ⟨-, rfl⟩ := step_cases stepped
    · exact s.cycle_pc_lt
    · exact below

/-- Settles O11: `step_illegalByte` and `step_definedByte_pc_run` for the cycle, and the two edges of a stopped
core. -/
theorem runStateTransitions : Obligations.RunStateTransitions := by
  refine ⟨fun s running => ?_, fun s image stopped =>
    ⟨⟨s, step_stopped s stopped, rfl⟩, ⟨_, rfl, State.resetWith_run image⟩⟩⟩
  by_cases illegal : IllegalByte s.nextByte
  · refine ⟨_, step_illegalByte s running illegal, fun _ => rfl, fun hlt => ?_, fun defined => ?_⟩
    · unfold IllegalByte at illegal
      omega
    · exact absurd illegal defined
  · obtain ⟨t, stepped, -, run⟩ := step_definedByte_pc_run s running illegal
    refine ⟨t, stepped, fun illegal' => absurd illegal' illegal, fun hlt => ?_, fun _ notHlt => ?_⟩
    · rw [run, if_pos hlt]
    · rw [run, if_neg notHlt]

/-- A stopped core presents no output (R111). -/
theorem State.outFires_eq_false_of_stopped (s : State) (rst : Bool) (stopped : s.run ≠ .running) :
    s.outFires rst = false := by
  simp [State.outFires, stopped]

/-- Settles O12: `runSteps_stopped`, and the port of a stopped core. -/
theorem stoppedCoreKeepsItsState : Obligations.StoppedCoreKeepsItsState :=
  fun k _ s stopped => ⟨runSteps_stopped k s stopped, s.outFires_eq_false_of_stopped false stopped⟩

/-- Settles O29: `step_illegalByte` gives the faulted state, and a stopped core stays as it is. -/
theorem faultIsPreciseAndRecorded : Obligations.FaultIsPreciseAndRecorded := by
  intro s running illegal
  have record : (lowNibble s.pc).toNat = s.pc.toNat % 16 := lowNibble_toNat s.pc
  have pc := s.fetchIncrement_pc_toNat
  refine ⟨_, _, step_illegalByte s running illegal, rfl, rfl, record, rfl, ?_,
    ⟨record, s.fetchIncrement_ir_eq_nextByte⟩, pc, rfl, rfl, rfl, rfl, rfl,
    fun k => runSteps_stopped k _ RunState.noConfusion⟩
  rw [State.setRun_pc, pc, State.fetchAddress, record]
  omega

end Sys2Proof.Machine
end

section
/-! SUPPORT. The ALU's results as two's-complement numbers, `sub`, and who writes and reads C and RB. -/

namespace Sys2Proof.Machine

/-! ### The ALU as bit-vector arithmetic -/

theorem add8_eq_add (p q : Byte) : add8 p q = p + q := by
  apply BitVec.eq_of_toNat_eq
  rw [add8_toNat, BitVec.toNat_add]

theorem sub8_eq_sub (p q : Byte) : sub8 p q = p - q := by
  apply BitVec.eq_of_toNat_eq
  have pByte : p.toNat < 256 := p.isLt
  have qByte : q.toNat < 256 := q.isLt
  have difference := sub8_toNat p q
  rw [BitVec.toNat_sub]
  omega

/-- The carry is bit 8 of the nine-bit sum (R94). -/
theorem carryOut_eq_getLsbD (p q : Byte) :
    carryOut p q = (p.setWidth 9 + q.setWidth 9).getLsbD 8 := by
  have pByte : p.toNat < 256 := p.isLt
  have qByte : q.toNat < 256 := q.isLt
  have sum : (p.setWidth 9 + q.setWidth 9).toNat = p.toNat + q.toNat := by
    rw [BitVec.toNat_add, BitVec.toNat_setWidth, BitVec.toNat_setWidth]
    omega
  rw [BitVec.getLsbD, sum, Nat.testBit_eq_decide_div_mod_eq, carryOut, decide_eq_decide]
  omega

/-- Settles O19: on eight bits `add8` and `sub8` are the bit-vector operations, whose signed readings Mathlib
knows. -/
theorem arithmeticReadAsSigned : Obligations.ArithmeticReadAsSigned := by
  refine fun x s => ⟨_, _, exec_add x s, exec_sub x s, ?_, ?_, carryOut_eq_getLsbD ..⟩
  · exact (congrArg BitVec.toInt (add8_eq_add ..)).trans (BitVec.toInt_add ..)
  · exact (congrArg BitVec.toInt (sub8_eq_sub ..)).trans (BitVec.toInt_sub ..)

/-- Settles O18: the step is `exec_sub` on the state after fetch and increment, and `sub8_toNat` gives the
difference. -/
theorem subWrapsAndKeepsCarry : Obligations.SubWrapsAndKeepsCarry := by
  refine ⟨fun x s => ⟨_, exec_sub x s, rfl, sub8_toNat .., rfl, rfl, rfl, rfl, .of_mem_eq rfl⟩,
    fun x s running fetches => ?_⟩
  have stepped := (step_of_fetches s (.sub x) running fetches).trans (exec_sub x s.fetchIncrement)
  exact ⟨_, stepped, rfl, sub8_toNat .., rfl, s.fetchIncrement_pc_toNat, running, rfl, .of_mem_eq rfl⟩

/-! ### C and RB -/

/-- With any byte but `jc` the carry of before decides nothing but the carry (R20). -/
theorem State.cycle_setC (s : State) (v : Bool) (notJc : s.nextByte.toNat / 16 ≠ 0x8) :
    (s.setC v).cycle = s.cycle.setC (s.setC v).cycle.c := by
  have pc : (s.setC v).cycle.pc = s.cycle.pc := by
    apply BitVec.eq_of_toNat_eq
    have sameByte : (s.setC v).nextByte = s.nextByte := rfl
    simp [State.cycle_pc_toNat, takesJump, sameByte, notJc]
  calc (s.setC v).cycle
    _ = (s.cycle.setPC (s.setC v).cycle.pc).setC (s.setC v).cycle.c := rfl
    _ = s.cycle.setC (s.setC v).cycle.c := by rw [pc]; rfl

/-- Settles O20: `State.cycle_c` for the writes, `State.cycle_setC` for the reads. -/
theorem carryIsWrittenByAddAndReadByJc : Obligations.CarryIsWrittenByAddAndReadByJc :=
  ⟨fun s running => ⟨_, step_eq_cycle s running, s.cycle_c⟩,
    fun s v running notJc => ⟨_, _, step_eq_cycle s running, step_eq_cycle (s.setC v) running,
      s.cycle_setC v notJc⟩,
    State.resetWith_c⟩

/-- The value of RB before a cycle decides nothing but RB (R14). -/
theorem State.cycle_setRB (s : State) (v : Byte) :
    (s.setRB v).cycle = s.cycle.setRB (s.setRB v).cycle.rb := rfl

/-- Settles O21: `State.cycle_rb` for the writes, `State.cycle_setRB` for the reads; where RB is written the
value written does not depend on the old one. -/
theorem rbIsWrittenByAddAndSubAndNeverRead : Obligations.RbIsWrittenByAddAndSubAndNeverRead := by
  refine ⟨fun s running => ⟨_, step_eq_cycle s running, s.cycle_rb⟩, fun s v running =>
    ⟨_, _, step_eq_cycle s running, step_eq_cycle (s.setRB v) running, s.cycle_setRB v, fun writes => ?_⟩⟩
  have rb : (s.setRB v).cycle.rb = s.cycle.rb := by
    rw [State.cycle_rb, State.cycle_rb, if_pos writes]
    exact if_pos writes
  rw [State.cycle_setRB, rb]
  rfl

end Sys2Proof.Machine
end

section
/-! SUPPORT. The output and halt family: a jump to itself, `out`, `hlt`, the growth of the output stream, and what
the ports and the exit status report. -/

namespace Sys2Proof.Machine

@[simp] theorem lowNibble_jumpTarget (x : Nibble) : lowNibble (jumpTarget x) = x := by
  apply BitVec.eq_of_toNat_eq
  have nibble : x.toNat < 16 := x.isLt
  rw [lowNibble_toNat, jumpTarget_toNat]
  omega

theorem State.nextByte_congr {s u : State} (mem : u.mem = s.mem) (pc : lowNibble u.pc = lowNibble s.pc) :
    u.nextByte = s.nextByte := by
  rw [State.nextByte, State.nextByte, ← lowNibble_toNat, ← lowNibble_toNat, mem, pc]

/-- One step of a `jmp` to its own address leaves a state that fetches the same `jmp` again (R96). -/
theorem step_selfJump (s : State) (running : s.run = .running) (fetches : Fetches s 0x6 (lowNibble s.pc)) :
    ∃ u, step s = .next u ∧ Fetches u 0x6 (lowNibble u.pc) ∧ u.run = .running ∧ u.out = s.out ∧
      u.mem = s.mem ∧ u.ra = s.ra ∧ u.rb = s.rb ∧ u.c = s.c := by
  have stepped : step s = .next (s.fetchIncrement.setPC (jumpTarget (lowNibble s.pc))) :=
    (step_of_fetches s (.jmp (lowNibble s.pc)) running fetches).trans (exec_jmp ..)
  have samePc : lowNibble (s.fetchIncrement.setPC (jumpTarget (lowNibble s.pc))).pc = lowNibble s.pc :=
    lowNibble_jumpTarget _
  have sameByte : (s.fetchIncrement.setPC (jumpTarget (lowNibble s.pc))).nextByte = s.nextByte :=
    State.nextByte_congr rfl samePc
  refine ⟨_, stepped, ?_, running, rfl, rfl, rfl, rfl, rfl⟩
  rw [Fetches, sameByte, samePc]
  exact fetches

/-- Settles O24: `step_selfJump` at every step. -/
theorem jumpToItselfRunsForever : Obligations.JumpToItselfRunsForever := by
  intro k
  induction k with
  | zero => exact fun s running _ => ⟨s, rfl, running, rfl, rfl, rfl, rfl, rfl⟩
  | succ k ih =>
    intro s running fetches
    obtain ⟨u, stepped, refetches, running', out, mem, ra, rb, c⟩ := step_selfJump s running fetches
    obtain ⟨t, ran, keeps⟩ := ih u running' refetches
    rw [out, mem, ra, rb, c] at keeps
    exact ⟨t, (runSteps_succ k s u stepped).trans ran, keeps⟩

/-- `out_valid` in the running core's step is 1 exactly when the byte fetched is an `out` (R111). -/
theorem State.outFires_iff (s : State) :
    s.outFires false = true ↔ s.run = .running ∧ s.nextByte.toNat / 16 = 0x5 := by
  rw [← highNibble_toNat, ← State.fetchIncrement_ir_eq_nextByte, State.fetchIncrement_ir]
  simp [State.outFires, ← BitVec.toNat_inj]

/-- Settles O25: the step is `exec_out` on the state after fetch and increment, and `State.outFires_iff` gives
the port. -/
theorem outEmitsTheAccumulator : Obligations.OutEmitsTheAccumulator := by
  refine ⟨fun n s => ⟨_, exec_out n s, rfl, rfl, rfl, rfl, rfl, rfl, .of_mem_eq rfl⟩,
    fun n s k running fetches => ?_⟩
  have stepped := (step_of_fetches s (.out n) running fetches).trans (exec_out n s.fetchIncrement)
  have opcode : s.nextByte.toNat / 16 = 0x5 := by
    have nibble : n.toNat < 16 := n.isLt
    rw [Fetches] at fetches
    omega
  have fires : s.outFires false = true := s.outFires_iff.mpr ⟨running, opcode⟩
  exact ⟨_, stepped, rfl, fires, if_pos fires, s.fetchIncrement_pc_toNat, rfl, rfl, rfl, running,
    .of_mem_eq rfl⟩

/-- Settles O26: the step is `exec_hlt` on the state after fetch and increment. -/
theorem hltHalts : Obligations.HltHalts := by
  refine ⟨fun n s => ⟨_, exec_hlt n s, rfl, rfl, rfl, rfl, rfl, rfl, .of_mem_eq rfl⟩,
    fun n s running fetches => ?_⟩
  have stepped := (step_of_fetches s (.hlt n) running fetches).trans (exec_hlt n s.fetchIncrement)
  exact ⟨_, stepped, rfl, rfl, s.fetchIncrement_pc_toNat, rfl, rfl, rfl, rfl, .of_mem_eq rfl⟩

/-- A step appends what `out_valid` announces, and nothing otherwise (R29, R111). -/
theorem step_out (s t : State) (stepped : step s = .next t) :
    t.out = if s.outFires false = true then s.out ++ [s.ra] else s.out := by
  obtain ⟨running, rfl⟩ | ⟨stopped, rfl⟩ := step_cases stepped
  · simp [State.outFires_iff, running]
  · simp [State.outFires_iff, stopped]

/-- Settles O27: `State.cycle_out` for the cycle, and induction on the number of steps for a run. -/
theorem outputStreamGrowsOnlyByOut : Obligations.OutputStreamGrowsOnlyByOut := by
  refine ⟨fun s running => ⟨_, step_eq_cycle s running, s.cycle_out⟩, fun k => ?_, State.resetWith_out⟩
  induction k with
  | zero =>
    intro s t ran
    obtain rfl := Host.Outcome.next.inj ran
    exact ⟨[], (List.append_nil _).symm, le_rfl⟩
  | succ k ih =>
    intro s t ran
    obtain ⟨u, stepped, ran⟩ := (runSteps_succ_iff ..).mp ran
    obtain ⟨more, out, length⟩ := ih u t ran
    rw [step_out s u stepped] at out
    split at out
    · exact ⟨s.ra :: more, by simpa using out, Nat.succ_le_succ length⟩
    · exact ⟨more, out, Nat.le_succ_of_le length⟩

theorem RunState.isHalted_iff (r : RunState) : r.isHalted = true ↔ r = .halted := by
  cases r <;> simp [RunState.isHalted]

theorem RunState.isFaulted_iff (r : RunState) : r.isFaulted = true ↔ ∃ f, r = .faulted f := by
  cases r <;> simp [RunState.isFaulted]

/-- Settles O38: the status ports by the run state, `out_valid` by `State.outFires_iff`, the stream by
`step_out`. -/
theorem portsReportOutputAndStatus : Obligations.PortsReportOutputAndStatus := by
  intro s k
  refine ⟨s.run.isHalted_iff, s.run.isFaulted_iff, fun r faulted => ?_, s.outFires_iff, rfl,
    fun t stepped => ?_⟩
  · simp [State.ports, faulted, RunState.faultOpcodePort, RunState.faultAddrPort]
  · rw [step_out s t stepped]
    by_cases fires : s.outFires false = true <;> simp [State.ports, State.outData, fires]

theorem Config.assemblerExitStatus_ne_zero (k : Nat) : Config.assemblerExitStatus k ≠ 0 := by
  unfold Config.assemblerExitStatus
  split <;> omega

/-- Settles O39: the observation and the status by the run state; an index of `Int.negSucc` is a negative
number. -/
theorem exitStatusOfARun : Obligations.ExitStatusOfARun := by
  refine ⟨fun s halted => ?_, ⟨Config.exitFailureCode, Int.negSucc_lt_zero _, fun s r faulted => ?_⟩,
    fun s running => ?_, fun e => Config.assemblerExitStatus_ne_zero e.index⟩
  · simp [State.observation, RunState.exitStatus, halted]
  · simp [State.observation, RunState.exitStatus, faulted]
  · simp [State.observation, RunState.exitStatus, running]

end Sys2Proof.Machine
end

section
/-! SUPPORT. The memory family: which cells a cycle reads and writes, the later fetch of a stored cell, and the
canonical form as the memory's bytes. -/

namespace Sys2Proof.Machine

/-! ### The cells after a cycle -/

/-- A cycle writes at most the cell that a `sta` names (R33). -/
theorem State.read_cycle_mem (s : State) (a : Nat) (low : a < 16) :
    Memory.read s.cycle.mem a =
      if s.nextByte.toNat / 16 = 0x4 ∧ a = (lowNibble s.nextByte).toNat then s.ra
      else Memory.read s.mem a := by
  rw [State.cycle_mem, ite_and]
  split
  · exact Memory.read_write_operandAddress s.mem (lowNibble s.nextByte) s.ra a low
  · rfl

/-! ### The cells a cycle reads -/

theorem State.memOperand_store (s : State) (a : Nat) (v : Byte) (x : Nibble) (low : a < 16)
    (other : a ≠ x.toNat) : (s.store a v).memOperand x = s.memOperand x := by
  have nibble : x.toNat < 16 := x.isLt
  apply Memory.read_write_other
  rw [operandAddress]
  omega

theorem State.nextByte_store (s : State) (a : Nat) (v : Byte) (low : a < 16)
    (other : a ≠ s.pc.toNat % 16) : (s.store a v).nextByte = s.nextByte := by
  apply Memory.read_write_other
  rw [State.store_pc]
  omega

theorem State.fetchIncrement_store (s : State) (a : Nat) (v : Byte) (low : a < 16)
    (other : a ≠ s.pc.toNat % 16) : (s.store a v).fetchIncrement = s.fetchIncrement.store a v := by
  have ir : (s.store a v).fetchIncrement.ir = s.fetchIncrement.ir := by
    rw [State.fetchIncrement_ir_eq_nextByte, State.fetchIncrement_ir_eq_nextByte,
      State.nextByte_store s a v low other]
  calc (s.store a v).fetchIncrement
    _ = (s.fetchIncrement.store a v).setIR (s.store a v).fetchIncrement.ir := rfl
    _ = s.fetchIncrement.store a v := by rw [ir]; rfl

/-- An execute phase reads no cell but the operand of `lda`, `add` and `sub` (R33). -/
theorem State.after_store (s : State) (i : Instr) (a : Nat) (v : Byte) (low : a < 16)
    (unread : 1 ≤ i.opcode.toNat ∧ i.opcode.toNat ≤ 3 → a ≠ i.operand.toNat) :
    (s.store a v).after i = { s.after i with mem := ((s.store a v).after i).mem } := by
  by_cases reads : 1 ≤ i.opcode.toNat ∧ i.opcode.toNat ≤ 3
  · simp [State.after, State.memOperand_store s a v i.operand low (unread reads)]
  · have notLda : i.opcode.toNat ≠ 1 := by omega
    have notAdd : i.opcode.toNat ≠ 2 := by omega
    have notSub : i.opcode.toNat ≠ 3 := by omega
    simp [State.after, nextRa, notLda, notAdd, notSub]

/-- A cycle reads no cell but the fetched one and the operand of `lda`, `add` and `sub` (R33). -/
theorem State.cycle_store (s : State) (a : Nat) (v : Byte) (low : a < 16) (unfetched : a ≠ s.pc.toNat % 16)
    (unread : 1 ≤ s.nextByte.toNat / 16 ∧ s.nextByte.toNat / 16 ≤ 3 → a ≠ (lowNibble s.nextByte).toNat) :
    (s.store a v).cycle = { s.cycle with mem := (s.store a v).cycle.mem } := by
  rw [← highNibble_toNat, ← decodeByte_opcode, ← decodeByte_operand] at unread
  rw [State.cycle, State.nextByte_store s a v low unfetched, State.fetchIncrement_store s a v low unfetched]
  exact State.after_store _ _ a v low unread

/-- Settles O30: `State.read_cycle_mem` for the writes, `State.cycle_store` for the reads. -/
theorem memoryAccessesOfACycle : Obligations.MemoryAccessesOfACycle := by
  refine ⟨fun s running => ⟨_, step_eq_cycle s running, s.read_cycle_mem⟩,
    fun s a v running low unfetched unread => ⟨_, _, step_eq_cycle s running,
      step_eq_cycle (s.store a v) running, s.cycle_store a v low unfetched unread, fun b bLow other => ?_⟩⟩
  rw [State.read_cycle_mem _ b bLow, State.read_cycle_mem _ b bLow,
    State.nextByte_store s a v low unfetched, State.store_mem, Memory.read_write_other _ _ _ _ (by omega)]
  rfl

/-- Settles O31: the cell written by `staStoresTheAccumulator`, fetched by any step that finds it unchanged. -/
theorem storeIsSeenByTheNextFetch : Obligations.StoreIsSeenByTheNextFetch := by
  intro s x running fetches
  obtain ⟨t, stepped, cells, ir, pc, -, -, -, running', -⟩ := staStoresTheAccumulator.2 x s running fetches
  have stored : Memory.read t.mem x.toNat = s.ra := by rw [cells x.toNat x.isLt, if_pos rfl]
  refine ⟨t, stepped, ir, fun atNext => ?_, fun u uRunning atCell unchanged => ?_⟩
  · have nextByte : t.nextByte = s.ra := by
      rw [State.nextByte, show t.pc.toNat % 16 = x.toNat by rw [PcAdvanced] at pc; omega, stored]
    exact ⟨nextByte, by rw [step_eq_exec_nextByte t running', nextByte]⟩
  · have nextByte : u.nextByte = s.ra := by rw [State.nextByte, atCell, unchanged, stored]
    rw [step_eq_exec_nextByte u uRunning, nextByte]

/-! ### The canonical form -/

theorem Memory.lookup_eq_zero_of_lt (m : Memory) (lo a : Nat) (wf : Memory.wfFrom lo m = true) (below : a < lo) :
    Memory.lookup a m = 0 := by
  induction m generalizing lo with
  | nil => rfl
  | cons cell rest ih =>
    obtain ⟨k, v⟩ := cell
    obtain ⟨above, -, -, wfRest⟩ := (Memory.wfFrom_cons ..).mp wf
    rw [Memory.lookup, if_neg (by omega), ih (k + 1) wfRest (by omega)]

/-- A listed cell is not 0, so a memory that reads 0 up to its address does not begin before or at it. -/
theorem Memory.lookup_head_ne_zero (lo a : Nat) (v : Byte) (rest : Memory)
    (wf : Memory.wfFrom lo ((a, v) :: rest) = true) : Memory.lookup a ((a, v) :: rest) ≠ 0 := by
  obtain ⟨-, -, nonzero, -⟩ := (Memory.wfFrom_cons ..).mp wf
  rwa [Memory.lookup, if_pos rfl]

/-- The first listed address of a canonical memory is not above the first of one that reads the same. -/
theorem Memory.head_le (lo lo' a b : Nat) (v w : Byte) (m m' : Memory)
    (wf : Memory.wfFrom lo ((a, v) :: m) = true) (wf' : Memory.wfFrom lo' ((b, w) :: m') = true)
    (same : Memory.lookup a ((a, v) :: m) = Memory.lookup a ((b, w) :: m')) : b ≤ a := by
  by_contra before
  obtain ⟨-, others⟩ := (Memory.wfFrom_cons ..).mp wf'
  have wfHead : Memory.wfFrom b ((b, w) :: m') = true := (Memory.wfFrom_cons ..).mpr ⟨le_rfl, others⟩
  exact Memory.lookup_head_ne_zero lo a v m wf
    (same.trans (Memory.lookup_eq_zero_of_lt _ b a wfHead (by omega)))

theorem Memory.eq_of_lookup_eq (m m' : Memory) (lo : Nat) (wf : Memory.wfFrom lo m = true)
    (wf' : Memory.wfFrom lo m' = true) (same : ∀ a, a < 16 → Memory.lookup a m = Memory.lookup a m') :
    m = m' := by
  induction m generalizing m' lo with
  | nil =>
    cases m' with
    | nil => rfl
    | cons cell' rest' =>
      obtain ⟨-, low, -, -⟩ := (Memory.wfFrom_cons ..).mp wf'
      exact absurd (same _ low).symm (Memory.lookup_head_ne_zero _ _ _ _ wf')
  | cons cell rest ih =>
    obtain ⟨a, v⟩ := cell
    obtain ⟨-, aLow, -, wfRest⟩ := (Memory.wfFrom_cons ..).mp wf
    cases m' with
    | nil => exact absurd (same a aLow) (Memory.lookup_head_ne_zero _ _ _ _ wf)
    | cons cell' rest' =>
      obtain ⟨b, w⟩ := cell'
      obtain ⟨-, bLow, -, wfRest'⟩ := (Memory.wfFrom_cons ..).mp wf'
      obtain rfl : a = b := le_antisymm
        (Memory.head_le lo lo b a w v rest' rest wf' wf (same b bLow).symm)
        (Memory.head_le lo lo a b v w rest rest' wf wf' (same a aLow))
      have sameHead := same a aLow
      rw [Memory.lookup, Memory.lookup, if_pos rfl, if_pos rfl] at sameHead
      have sameRest : rest = rest' := ih rest' (a + 1) wfRest wfRest' fun c cLow => by
        have sameCell := same c cLow
        rw [Memory.lookup, Memory.lookup] at sameCell
        by_cases atHead : a = c
        · rw [Memory.lookup_eq_zero_of_lt rest (a + 1) c wfRest (by omega),
            Memory.lookup_eq_zero_of_lt rest' (a + 1) c wfRest' (by omega)]
        · rwa [if_neg atHead, if_neg atHead] at sameCell
      rw [sameHead, sameRest]

/-- Settles O32: `Memory.eq_of_lookup_eq`, a read below 16 being a lookup. -/
theorem canonicalMemoryIsItsBytes : Obligations.CanonicalMemoryIsItsBytes := by
  intro m m' wf wf' same
  refine Memory.eq_of_lookup_eq m m' 0 wf wf' fun a low => ?_
  have sameRead := same a low
  rwa [Memory.read, Memory.read, show a % Config.memorySize = a from Nat.mod_eq_of_lt low] at sameRead

end Sys2Proof.Machine
end

section
/-! SUPPORT. The reset input, the invariant of the core, and the state no program can observe. -/

namespace Sys2Proof.Machine

/-- Bytes of an image past 16 are discarded (R38). -/
theorem Memory.load_append (image extra : List Byte) (full : image.length = 16) :
    Memory.load (image ++ extra) = Memory.load image := by
  have fits : Config.memorySize ≤ image.length := full.ge
  rw [Memory.load, Memory.load, List.take_append_of_le_length fits]

/-- Settles O34: `clockEdge` by its cases, the image's end by `Memory.load_append`. -/
theorem resetInputReloadsEverything : Obligations.ResetInputReloadsEverything := by
  refine ⟨fun image s => ⟨rfl, rfl⟩, fun image extra full => ?_, rfl⟩
  rw [State.resetWith, Memory.load_append image extra full, State.resetWith]

/-- The reset state meets the invariant (R16, R30). -/
theorem State.inv_resetWith (image : List Byte) : (State.resetWith image).Inv :=
  ⟨Nat.zero_lt_succ 15, Memory.wf_load image, trivial⟩

/-- Settles O35: `State.inv_resetWith`, `State.reset` being the reset with the empty image. -/
theorem invariantHoldsAtReset : Obligations.InvariantHoldsAtReset :=
  ⟨State.inv_resetWith [], State.inv_resetWith⟩

theorem State.wf_cycle_mem (s : State) (wf : Memory.wf s.mem = true) : Memory.wf s.cycle.mem = true := by
  rw [State.cycle_mem]
  split
  · exact Memory.wf_write _ _ _ wf
  · exact wf

/-- A running core's step faults at an illegal byte or halts at a `hlt`, right after fetch and increment, or it
leaves the core running (R27). -/
theorem step_running_cases {s t : State} (running : s.run = .running) (stepped : step s = .next t) :
    (IllegalByte s.nextByte ∧
      t = s.fetchIncrement.setRun (.faulted ⟨highNibble s.nextByte, s.fetchAddress⟩)) ∨
    (s.nextByte.toNat / 16 = 0xF ∧ t = s.fetchIncrement.setRun .halted) ∨ t.run = .running := by
  by_cases illegal : IllegalByte s.nextByte
  · exact .inl ⟨illegal, Host.Outcome.next.inj (stepped.symm.trans (step_illegalByte s running illegal))⟩
  obtain ⟨u, stepped', -, run⟩ := step_definedByte_pc_run s running illegal
  obtain rfl : t = u := Host.Outcome.next.inj (stepped.symm.trans stepped')
  by_cases hlt : s.nextByte.toNat / 16 = 0xF
  · have fetches : Fetches s 0xF (lowNibble s.nextByte) := by
      rw [Fetches, lowNibble_toNat]
      omega
    have halts := (step_of_fetches s (.hlt (lowNibble s.nextByte)) running fetches).trans (exec_hlt ..)
    exact .inr (.inl ⟨hlt, Host.Outcome.next.inj (stepped.symm.trans halts)⟩)
  · exact .inr (.inr (by rw [run, if_neg hlt]))

theorem State.stoppedAtMar_fetchIncrement (s : State) : StoppedAtMar s.fetchIncrement := by
  rw [StoppedAtMar, State.fetchIncrement_pc_toNat, State.fetchIncrement_mar, State.fetchAddress,
    lowNibble_toNat]
  omega

/-- A cycle that stops the core stops it at the instruction in IR, fetched from MAR (R22, R87, R103). -/
theorem runStateAgrees_step {s t : State} (running : s.run = .running) (stepped : step s = .next t) :
    RunStateAgrees t := by
  have ir := s.fetchIncrement_ir_eq_nextByte
  have stoppedAt := s.stoppedAtMar_fetchIncrement
  obtain ⟨illegal, rfl⟩ | ⟨hlt, rfl⟩ | run := step_running_cases running stepped
  · have notDefined : (decodeByte s.fetchIncrement.ir).WellFormed = false := by
      rwa [decodeByte_wellFormed_eq_false_iff, ir]
    exact ⟨congrArg highNibble ir.symm, rfl, notDefined, stoppedAt, rfl⟩
  · have opcode : highNibble s.fetchIncrement.ir = 0xF#4 := by
      apply BitVec.eq_of_toNat_eq
      rw [highNibble_toNat, ir, hlt]
      rfl
    exact ⟨opcode, stoppedAt, rfl⟩
  · rw [RunStateAgrees, run]
    trivial

theorem State.inv_step (s t : State) (inv : s.Inv) (stepped : step s = .next t) : t.Inv := by
  obtain ⟨running, rfl⟩ | ⟨-, rfl⟩ := step_cases stepped
  · obtain ⟨-, wf, -⟩ := inv
    exact ⟨s.cycle_pc_lt, s.wf_cycle_mem wf, runStateAgrees_step running stepped⟩
  · exact inv

/-- Settles O36: `State.inv_step` for an edge without reset, `State.inv_resetWith` for one with it. -/
theorem clockEdgeKeepsTheInvariant : Obligations.ClockEdgeKeepsTheInvariant := by
  refine fun s t inv => ⟨s.inv_step t inv, fun rst image edge => ?_⟩
  cases rst with
  | true =>
    obtain rfl := Host.Outcome.next.inj edge
    exact State.inv_resetWith image
  | false => exact s.inv_step t inv edge

/-! ### State a program cannot observe -/

/-- States that differ only in IR, MAR and RB step alike (R25). -/
theorem SameVisible.step {s s' t : State} (same : SameVisible s s') (stepped : step s = .next t) :
    ∃ t', step s' = .next t' ∧ SameVisible t t' := by
  obtain ⟨pc, ra, c, mem, run, out⟩ := same
  obtain ⟨running, rfl⟩ | ⟨stopped, rfl⟩ := step_cases stepped
  · refine ⟨_, step_eq_cycle s' (run.trans running), ?_⟩
    have visible : s' = { s with ir := s'.ir, mar := s'.mar, rb := s'.rb } := by
      rw [← pc, ← ra, ← c, ← mem, ← run, ← out]
    rw [visible]
    exact ⟨rfl, rfl, rfl, rfl, rfl, rfl⟩
  · exact ⟨s', step_stopped s' (run ▸ stopped), pc, ra, c, mem, run, out⟩

/-- Settles O37: `SameVisible.step` at every step. -/
theorem irMarAndRbAreUnobservable : Obligations.IrMarAndRbAreUnobservable := by
  intro k
  induction k with
  | zero =>
    intro s s' t same ran
    obtain rfl := Host.Outcome.next.inj ran
    exact ⟨s', rfl, same⟩
  | succ k ih =>
    intro s s' t same ran
    obtain ⟨u, stepped, ran⟩ := (runSteps_succ_iff ..).mp ran
    obtain ⟨u', stepped', same'⟩ := same.step stepped
    obtain ⟨t', ran', visible⟩ := ih u u' t same' ran
    exact ⟨t', (runSteps_succ_iff ..).mpr ⟨u', stepped', ran'⟩, visible⟩

end Sys2Proof.Machine
end

section
/-! SUPPORT. The assembler's keywords against their spellings written out, and each pass token by token. -/

namespace Sys2Proof.Machine

/-! ### Keywords (R62) -/

/-- The ten keywords with their spellings written out byte by byte. -/
def keywordSpellings : List (Token × Keyword) :=
  (operandSpellings ++ plainSpellings).map (fun p => (p.1, .instr p.2.1)) ++ [(dbSpelling, .db)]

theorem keywordTable_perm_keywordSpellings : keywordTable.Perm keywordSpellings := by decide

/-- A list whose keys are distinct is looked up by membership. -/
theorem lookup_eq_some_iff_mem {α β : Type} [BEq α] [LawfulBEq α] (l : List (α × β)) (k : α) (v : β)
    (distinct : (l.map Prod.fst).Nodup) : l.lookup k = some v ↔ (k, v) ∈ l := by
  induction l with
  | nil => simp
  | cons entry rest ih =>
    obtain ⟨k', v'⟩ := entry
    obtain ⟨absent, distinct⟩ := List.nodup_cons.mp distinct
    by_cases found : k = k'
    · subst found
      have notInRest : (k, v) ∉ rest := fun listed => absent (List.mem_map.mpr ⟨_, listed, rfl⟩)
      simp [notInRest, eq_comm]
    · have notEqual : (k == k') = false := beq_eq_false_iff_ne.mpr found
      simp [List.lookup_cons, notEqual, found, ih distinct]

theorem keywordOf_eq_some_iff (t : Token) (k : Keyword) :
    keywordOf t = some k ↔ (∃ p ∈ operandSpellings ++ plainSpellings, t = p.1 ∧ k = .instr p.2.1) ∨
      (t = dbSpelling ∧ k = .db) := by
  have distinct : (keywordTable.map Prod.fst).Nodup := by decide
  rw [keywordOf, lookup_eq_some_iff_mem _ _ _ distinct, keywordTable_perm_keywordSpellings.mem_iff,
    keywordSpellings, List.mem_append, List.mem_map, List.mem_singleton, Prod.mk.injEq]
  simp only [Prod.mk.injEq, @eq_comm _ _ t, @eq_comm _ _ k]

theorem keywordOf_eq_none_iff (t : Token) : keywordOf t = none ↔ NotAKeyword t := by
  rw [Option.eq_none_iff_forall_ne_some, NotAKeyword]
  constructor
  · intro noKeyword
    refine ⟨fun spelled => noKeyword .db ?_, fun p listed spelled => noKeyword (.instr p.2.1) ?_⟩
    · exact (keywordOf_eq_some_iff ..).mpr (.inr ⟨spelled, rfl⟩)
    · exact (keywordOf_eq_some_iff ..).mpr (.inl ⟨p, listed, spelled, rfl⟩)
  · rintro ⟨notDb, notMnemonic⟩ k kind
    obtain ⟨p, listed, spelled, -⟩ | ⟨spelled, -⟩ := (keywordOf_eq_some_iff ..).mp kind
    · exact notMnemonic p listed spelled
    · exact notDb spelled

theorem operandSpellings_columns :
    ∀ p ∈ operandSpellings, p.2.1.control.toNat = p.2.2 ∧ p.2.1.takesOperand = true := by decide

theorem plainSpellings_columns :
    ∀ p ∈ plainSpellings, p.2.1.control.toNat = p.2.2 ∧ p.2.1.takesOperand = false := by decide

/-- Settles O49: the table against the spellings, and the columns of the spellings' lists. -/
theorem keywordsAreTheTenSpellings : Obligations.KeywordsAreTheTenSpellings :=
  ⟨keywordOf_eq_some_iff, keywordOf_eq_none_iff, operandSpellings_columns, plainSpellings_columns⟩

theorem keywordOf_dbSpelling : keywordOf dbSpelling = some .db :=
  (keywordOf_eq_some_iff ..).mpr (.inr ⟨rfl, rfl⟩)

theorem keywordOf_operandSpelling {p : Token × Mnemonic × Nat} (listed : p ∈ operandSpellings) :
    keywordOf p.1 = some (.instr p.2.1) :=
  (keywordOf_eq_some_iff ..).mpr (.inl ⟨p, List.mem_append_left _ listed, rfl, rfl⟩)

theorem keywordOf_plainSpelling {p : Token × Mnemonic × Nat} (listed : p ∈ plainSpellings) :
    keywordOf p.1 = some (.instr p.2.1) :=
  (keywordOf_eq_some_iff ..).mpr (.inl ⟨p, List.mem_append_right _ listed, rfl, rfl⟩)

/-! ### What ends a pass in an error -/

section
variable (mode : SymbolMatch) (table : SymbolTable) (off : Nat) (t : Token) (ts : List Token)

theorem passOne_operand_missing (m : Mnemonic) (kind : keywordOf t = some (.instr m))
    (takes : m.takesOperand = true) : passOne off table [t] = .error .missingOperand := by
  rw [passOne.eq_def]; simp only [kind, takes, if_true]

theorem passOne_db_missing (kind : keywordOf t = some .db) (short : ts.length < 2) :
    passOne off table (t :: ts) = .error .missingOperand := by
  rw [passOne.eq_def]
  match ts with
  | [] | [_] => simp only [kind]
  | _ :: _ :: _ => simp at short

theorem passTwo_operand_missing (m : Mnemonic) (kind : keywordOf t = some (.instr m))
    (takes : m.takesOperand = true) : passTwo mode table off [t] = .error .missingOperand := by
  rw [passTwo.eq_def]; simp only [kind, takes, if_true]

theorem passTwo_db_missing (kind : keywordOf t = some .db) (short : ts.length < 2) :
    passTwo mode table off (t :: ts) = .error .missingOperand := by
  rw [passTwo.eq_def]
  match ts with
  | [] | [_] => simp only [kind]
  | _ :: _ :: _ => simp at short

theorem passTwo_db_badLiteral (name value : Token) (kind : keywordOf t = some .db)
    (notLiteral : decimalByte value = none) :
    passTwo mode table off (t :: name :: value :: ts) = .error .badLiteral := by
  rw [passTwo.eq_def]; simp only [kind, notLiteral]

end

/-- An emission at 16 or beyond is over capacity, and one below 16 has the error of what follows (R74, R75). -/
theorem emitAt_eq_error (off : Nat) (e : Emission) (rest : AsmResult (List Emission)) (err : AsmError)
    (fails : (16 ≤ off ∧ err = .overCapacity) ∨ (off < 16 ∧ rest = .error err)) :
    emitAt off e rest = .error err := by
  unfold emitAt
  obtain ⟨above, rfl⟩ | ⟨below, rfl⟩ := fails
  · exact if_neg (Nat.not_lt.mpr above)
  · exact if_pos below

/-! ### Token by token -/

/-- Settles O50: pass one's law for each kind of token. -/
theorem passOneCountsAndRecords : Obligations.PassOneCountsAndRecords := by
  intro off table ts
  refine ⟨rfl, fun t noKeyword => ?_, fun p listed => ?_, fun p listed => ?_, ?_,
    fun name => ⟨?_, fun value => ?_⟩⟩
  · exact passOne_skip _ _ _ _ ((keywordOf_eq_none_iff t).mpr noKeyword)
  · exact passOne_plain _ _ _ _ _ (keywordOf_plainSpelling listed) (plainSpellings_columns p listed).2
  · have kind := keywordOf_operandSpelling listed
    obtain ⟨-, takes⟩ := operandSpellings_columns p listed
    exact ⟨passOne_operand_missing _ _ _ _ kind takes,
      fun operand => passOne_operand _ _ _ _ _ operand kind takes⟩
  · exact passOne_db_missing _ _ _ _ keywordOf_dbSpelling (by decide)
  · exact passOne_db_missing _ _ _ _ keywordOf_dbSpelling (by simp)
  · exact passOne_db _ _ _ _ name value keywordOf_dbSpelling

theorem passTwo_operandSpelling (mode : SymbolMatch) (table : SymbolTable) (off : Nat)
    {p : Token × Mnemonic × Nat} (listed : p ∈ operandSpellings) (operand : Token) (x : Nibble)
    (ts : List Token) (resolved : resolveOperand mode table operand = .ok x) :
    passTwo mode table off (p.1 :: operand :: ts) =
      emitAt off (.code p.2.1 x) (passTwo mode table (off + 1) ts) :=
  passTwo_operand _ _ _ _ _ _ _ _ (keywordOf_operandSpelling listed) (operandSpellings_columns p listed).2
    resolved

theorem passTwo_plainSpelling (mode : SymbolMatch) (table : SymbolTable) (off : Nat)
    {p : Token × Mnemonic × Nat} (listed : p ∈ plainSpellings) (ts : List Token) :
    passTwo mode table off (p.1 :: ts) = emitAt off (.code p.2.1 0) (passTwo mode table (off + 1) ts) :=
  passTwo_plain _ _ _ _ _ _ (keywordOf_plainSpelling listed) (plainSpellings_columns p listed).2

theorem passTwo_dbSpelling (mode : SymbolMatch) (table : SymbolTable) (off : Nat) (name value : Token)
    (v : Byte) (ts : List Token) (literal : decimalByte value = some v) :
    passTwo mode table off (dbSpelling :: name :: value :: ts) =
      emitAt off (.data name v) (passTwo mode table (off + 1) ts) :=
  passTwo_db _ _ _ _ _ _ _ _ keywordOf_dbSpelling literal

/-- Settles O51: pass two's law for each kind of token, and the three outcomes of an emission. -/
theorem passTwoEmitsWhatTheTokensSay : Obligations.PassTwoEmitsWhatTheTokensSay := by
  intro mode table off ts
  refine ⟨rfl, fun t noKeyword => ?skipped, fun es below rest => ⟨?out, ?hlt, ?operand, ?data⟩,
    fun err fails => ⟨?plainFails, ?operandFails, ?dataFails⟩, fun p listed => ⟨?alone, ?unresolved⟩,
    ?dbAlone, fun name => ?dbNameAlone⟩
  case skipped => exact passTwo_skip _ _ _ _ _ ((keywordOf_eq_none_iff t).mpr noKeyword)
  case out =>
    have emitted := passTwo_plainSpelling mode table off List.mem_cons_self ts
    exact ⟨_, emitted.trans (by rw [rest, emitAt_below _ _ _ below]), by decide⟩
  case hlt =>
    have emitted := passTwo_plainSpelling mode table off (List.mem_cons_of_mem _ List.mem_cons_self) ts
    exact ⟨_, emitted.trans (by rw [rest, emitAt_below _ _ _ below]), by decide⟩
  case operand =>
    intro p listed operand x resolved
    refine ⟨.code p.2.1 x, ?_, ?_⟩
    · rw [passTwo_operandSpelling mode table off listed operand x ts resolved, rest,
        emitAt_below _ _ _ below]
    · rw [Emission.byte, packNibbles_toNat, (operandSpellings_columns p listed).1]
  case data =>
    intro name value v literal
    refine ⟨?_, rfl⟩
    rw [passTwo_dbSpelling mode table off name value v ts literal, rest, emitAt_below _ _ _ below]
  case plainFails =>
    intro p listed
    rw [passTwo_plainSpelling mode table off listed, emitAt_eq_error _ _ _ err fails]
  case operandFails =>
    intro p listed operand x resolved
    rw [passTwo_operandSpelling mode table off listed operand x ts resolved,
      emitAt_eq_error _ _ _ err fails]
  case dataFails =>
    intro name value v literal
    rw [passTwo_dbSpelling mode table off name value v ts literal, emitAt_eq_error _ _ _ err fails]
  case alone =>
    exact passTwo_operand_missing _ _ _ _ _ (keywordOf_operandSpelling listed)
      (operandSpellings_columns p listed).2
  case unresolved =>
    exact fun operand err => passTwo_operand_error _ _ _ _ _ _ operand err
      (keywordOf_operandSpelling listed) (operandSpellings_columns p listed).2
  case dbAlone => exact passTwo_db_missing _ _ _ _ _ keywordOf_dbSpelling (by decide)
  case dbNameAlone => exact passTwo_db_missing _ _ _ _ _ keywordOf_dbSpelling (by simp)

/-- Settles O52: `assemble` with the answers of the two passes put in. -/
theorem assemblerRunsBothPasses : Obligations.AssemblerRunsBothPasses := by
  refine fun mode src => ⟨fun err first => ?_, fun table err first second => ?_,
    fun table es first second => ?_, rfl⟩
  · simp only [assemble, assembleTokens, first]
  · simp only [assemble, assembleTokens, first, second]
  · simp only [assemble, assembleTokens, first, second, imageOf]

end Sys2Proof.Machine
end

section
/-! SUPPORT. The two passes over whole token sequences: induction along the source's tokens, and what a successful
pass two tells of its emissions. -/

namespace Sys2Proof.Machine

/-! ### Induction along the tokens a pass consumes (R63, R66) -/

/-- Both passes go through a token sequence in this way: a token that is no keyword alone, `out` and `hlt` alone,
another mnemonic with its operand, `db` with its name and value; a sequence may end before what its keyword
takes. -/
theorem tokens_induction {motive : List Token → Prop} (nil : motive [])
    (skip : ∀ t ts, keywordOf t = none → motive ts → motive (t :: ts))
    (plain : ∀ t ts m, keywordOf t = some (.instr m) → m.takesOperand = false → motive ts → motive (t :: ts))
    (operandMissing : ∀ t m, keywordOf t = some (.instr m) → m.takesOperand = true → motive [t])
    (operand : ∀ t o ts m, keywordOf t = some (.instr m) → m.takesOperand = true → motive ts →
      motive (t :: o :: ts))
    (dbMissing : ∀ t ts, keywordOf t = some .db → ts.length < 2 → motive (t :: ts))
    (db : ∀ t name value ts, keywordOf t = some .db → motive ts → motive (t :: name :: value :: ts))
    (ts : List Token) : motive ts := by
  induction ts using (measure List.length).wf.induction with | _ ts shorter
  have again (rest : List Token) (fewer : rest.length < ts.length) : motive rest := shorter rest fewer
  cases ts with
  | nil => exact nil
  | cons t ts =>
    match kind : keywordOf t with
    | none => exact skip t ts kind (again ts (by simp))
    | some (.instr m) =>
      cases takes : m.takesOperand with
      | false => exact plain t ts m kind takes (again ts (by simp))
      | true =>
        cases ts with
        | nil => exact operandMissing t m kind takes
        | cons o ts => exact operand t o ts m kind takes (again ts (by simp))
    | some .db =>
      match ts, again with
      | [], _ => exact dbMissing t [] kind Nat.two_pos
      | [name], _ => exact dbMissing t [name] kind Nat.one_lt_two
      | name :: value :: rest, again => exact db t name value rest kind (again rest (by simp; omega))

/-- Pass two from the offset `off` on assembles the tokens to the emissions, one constructor for each kind of
token. -/
inductive Assembles (mode : SymbolMatch) (table : SymbolTable) : Nat → List Token → List Emission → Prop
  | nil (off) : Assembles mode table off [] []
  | skip {off t ts es} (kind : keywordOf t = none) (rest : Assembles mode table off ts es) :
      Assembles mode table off (t :: ts) es
  | plain {off t ts es m} (kind : keywordOf t = some (.instr m)) (plain : m.takesOperand = false)
      (below : off < 16) (rest : Assembles mode table (off + 1) ts es) :
      Assembles mode table off (t :: ts) (.code m 0 :: es)
  | operand {off t o ts es m x} (kind : keywordOf t = some (.instr m)) (takes : m.takesOperand = true)
      (resolved : resolveOperand mode table o = .ok x) (below : off < 16)
      (rest : Assembles mode table (off + 1) ts es) :
      Assembles mode table off (t :: o :: ts) (.code m x :: es)
  | db {off t name value ts es v} (kind : keywordOf t = some .db) (literal : decimalByte value = some v)
      (below : off < 16) (rest : Assembles mode table (off + 1) ts es) :
      Assembles mode table off (t :: name :: value :: ts) (.data name v :: es)

/-- A successful pass two assembles its tokens to its emissions (R66). -/
theorem assembles_of_passTwo (mode : SymbolMatch) (table : SymbolTable) (off : Nat) (ts : List Token)
    (es : List Emission) (answer : passTwo mode table off ts = .ok es) : Assembles mode table off ts es := by
  induction ts using tokens_induction generalizing off es with
  | nil =>
    obtain rfl := Except.ok.inj answer
    exact .nil off
  | skip t ts kind ih =>
    rw [passTwo_skip _ _ _ _ _ kind] at answer
    exact .skip kind (ih off es answer)
  | plain t ts m kind plain ih =>
    rw [passTwo_plain _ _ _ _ _ m kind plain] at answer
    obtain ⟨below, later, rest, rfl⟩ := emitAt_ok _ _ _ _ answer
    exact .plain kind plain below (ih (off + 1) later rest)
  | operandMissing t m kind takes => cases (passTwo_operand_missing _ _ _ _ m kind takes).symm.trans answer
  | operand t o ts m kind takes ih =>
    match resolved : resolveOperand mode table o with
    | .error err => cases (passTwo_operand_error _ _ _ _ _ m o err kind takes resolved).symm.trans answer
    | .ok x =>
      rw [passTwo_operand _ _ _ _ _ m o x kind takes resolved] at answer
      obtain ⟨below, later, rest, rfl⟩ := emitAt_ok _ _ _ _ answer
      exact .operand kind takes resolved below (ih (off + 1) later rest)
  | dbMissing t ts kind short => cases (passTwo_db_missing _ _ _ _ _ kind short).symm.trans answer
  | db t name value ts kind ih =>
    match literal : decimalByte value with
    | none => cases (passTwo_db_badLiteral _ _ _ _ _ name value kind literal).symm.trans answer
    | some v =>
      rw [passTwo_db _ _ _ _ _ name value v kind literal] at answer
      obtain ⟨below, later, rest, rfl⟩ := emitAt_ok _ _ _ _ answer
      exact .db kind literal below (ih (off + 1) later rest)

/-! ### Pass one beside pass two -/

/-- The name and offset of an emission that is a `db`'s byte. -/
def dataOffset (p : Emission × Nat) : Option (Token × Nat) :=
  match p.1 with
  | .code _ _ => none
  | .data name _ => some (name, p.2)

@[simp] theorem dataOffset_code (m : Mnemonic) (x : Nibble) (k : Nat) : dataOffset (.code m x, k) = none := rfl

@[simp] theorem dataOffset_data (name : Token) (v : Byte) (k : Nat) :
    dataOffset (.data name v, k) = some (name, k) := rfl

theorem dataOffsets_eq (es : List Emission) : dataOffsets es = es.zipIdx.filterMap dataOffset := rfl

/-- Pass one over assembled tokens appends the names and offsets of the data emissions (R70). -/
theorem Assembles.passOne_eq {mode : SymbolMatch} {table : SymbolTable} {off : Nat} {ts : List Token}
    {es : List Emission} (assembled : Assembles mode table off ts es) (before : SymbolTable) :
    passOne off before ts = .ok (before ++ (es.zipIdx off).filterMap dataOffset) := by
  induction assembled generalizing before with
  | nil off => simp [passOne]
  | skip kind _ ih => rw [passOne_skip _ _ _ _ kind, ih]
  | plain kind plain _ _ ih =>
    rw [passOne_plain _ _ _ _ _ kind plain, ih]
    simp [List.zipIdx_cons, List.filterMap_cons]
  | operand kind takes _ _ _ ih =>
    rw [passOne_operand _ _ _ _ _ _ kind takes, ih]
    simp [List.zipIdx_cons, List.filterMap_cons]
  | db kind _ _ _ ih =>
    rw [passOne_db _ _ _ _ _ _ kind, ih]
    simp [List.zipIdx_cons]

/-- Settles O41: pass one over what pass two has assembled, by `Assembles.passOne_eq`. -/
theorem passOneOffsetsAreEmissionOffsets : Obligations.PassOneOffsetsAreEmissionOffsets := by
  intro mode ts table es first second
  have offsets := (assembles_of_passTwo mode table 0 ts es second).passOne_eq []
  rw [dataOffsets_eq]
  exact Except.ok.inj (first.symm.trans offsets)

theorem emitAt_ne_missingOperand (off : Nat) (e : Emission) (rest : AsmResult (List Emission))
    (restNot : rest ≠ .error .missingOperand) : emitAt off e rest ≠ .error .missingOperand := by
  intro answer
  obtain full | rest := emitAt_error _ _ _ _ answer
  · cases full
  · exact restNot rest

/-- Where pass one finds every operand it counts, so does pass two, from any table and any offset (R63, R66). -/
theorem passTwo_ne_missingOperand (mode : SymbolMatch) (table' : SymbolTable) (off off' : Nat)
    (before table : SymbolTable) (ts : List Token) (first : passOne off before ts = .ok table) :
    passTwo mode table' off' ts ≠ .error .missingOperand := by
  induction ts using tokens_induction generalizing off off' before with
  | nil => simp [passTwo]
  | skip t ts kind ih =>
    rw [passOne_skip _ _ _ _ kind] at first
    rw [passTwo_skip _ _ _ _ _ kind]
    exact ih _ _ _ first
  | plain t ts m kind plain ih =>
    rw [passOne_plain _ _ _ _ m kind plain] at first
    rw [passTwo_plain _ _ _ _ _ m kind plain]
    exact emitAt_ne_missingOperand _ _ _ (ih _ _ _ first)
  | operandMissing t m kind takes => cases (passOne_operand_missing _ _ _ m kind takes).symm.trans first
  | operand t o ts m kind takes ih =>
    rw [passOne_operand _ _ _ _ m o kind takes] at first
    match resolved : resolveOperand mode table' o with
    | .error err =>
      rw [passTwo_operand_error _ _ _ _ _ m o err kind takes resolved]
      intro missing
      obtain rfl := Except.error.inj missing
      exact resolveOperand_not_missing mode table' o resolved
    | .ok x =>
      rw [passTwo_operand _ _ _ _ _ m o x kind takes resolved]
      exact emitAt_ne_missingOperand _ _ _ (ih _ _ _ first)
  | dbMissing t ts kind short => cases (passOne_db_missing _ _ _ _ kind short).symm.trans first
  | db t name value ts kind ih =>
    rw [passOne_db _ _ _ _ name value kind] at first
    match literal : decimalByte value with
    | none => simp [passTwo_db_badLiteral _ _ _ _ _ name value kind literal]
    | some v =>
      rw [passTwo_db _ _ _ _ _ name value v kind literal]
      exact emitAt_ne_missingOperand _ _ _ (ih _ _ _ first)

/-- Settles O42: `passTwo_ne_missingOperand` from offset 0. -/
theorem passTwoNeverLacksATokenAfterPassOne : Obligations.PassTwoNeverLacksATokenAfterPassOne :=
  fun mode ts table table' off first => passTwo_ne_missingOperand mode table' 0 off [] table ts first

/-! ### The image -/

/-- An image comes from the emissions of two successful passes over the source's tokens (R60). -/
theorem passes_of_assemble (mode : SymbolMatch) (src image : List Byte)
    (answer : assemble mode src = .ok image) :
    ∃ table es, passOne 0 [] (tokenize src) = .ok table ∧
      passTwo mode table 0 (tokenize src) = .ok es ∧ image = es.map Emission.byte := by
  obtain ⟨firstFails, secondFails, bothSucceed, -⟩ := assemblerRunsBothPasses mode src
  match first : passOne 0 [] (tokenize src) with
  | .error err => cases (firstFails err first).symm.trans answer
  | .ok table =>
    match second : passTwo mode table 0 (tokenize src) with
    | .error err => cases (secondFails table err first second).symm.trans answer
    | .ok es =>
      have succeeds := bothSucceed table es first second
      exact ⟨table, es, rfl, second, Except.ok.inj (answer.symm.trans succeeds)⟩

/-- Pass two emits no more than there is room for (R74). -/
theorem Assembles.length_le {mode : SymbolMatch} {table : SymbolTable} {off : Nat} {ts : List Token}
    {es : List Emission} (assembled : Assembles mode table off ts es) : es.length ≤ 16 - off := by
  induction assembled with
  | nil off => exact Nat.zero_le _
  | skip _ _ ih => exact ih
  | plain _ _ below _ ih | operand _ _ _ below _ ih | db _ _ below _ ih =>
    rw [List.length_cons]
    omega

/-- A reference that is found resolves to its offset if that is below 16 (R67, R74). -/
theorem resolveOperand_of_lookupName (mode : SymbolMatch) (table : SymbolTable) (t name : Token) (off : Nat)
    (bracketed : isReference t = true) (named : referenceName t = some name)
    (found : lookupName mode name table = some off) :
    resolveOperand mode table t =
      if off < 16 then .ok (BitVec.ofNat 4 off) else .error .overCapacity := by
  simp only [resolveOperand, bracketed, named, found, if_true]
  rfl

/-- Settles O44: `Assembles.length_le` for the image, `resolveOperand_of_lookupName` for the references,
`emitAt_eq_error` for the emissions. -/
theorem overCapacityIsAnError : Obligations.OverCapacityIsAnError := by
  refine ⟨fun mode src image answer => ?_, fun mode table t name off bracketed named found => ?_,
    fun off e rest above => emitAt_eq_error _ _ _ _ (.inl ⟨above, rfl⟩)⟩
  · obtain ⟨table, es, -, second, rfl⟩ := passes_of_assemble mode src image answer
    rw [List.length_map]
    exact (assembles_of_passTwo mode table 0 _ es second).length_le
  · rw [resolveOperand_of_lookupName mode table t name off bracketed named found]
    exact ⟨fun above => if_neg (Nat.not_lt.mpr above),
      fun below => ⟨BitVec.ofNat 4 off, if_pos below, Nat.mod_eq_of_lt below⟩⟩

/-! ### What each emission stems from (R76) -/

/-- The instruction emission of `m` and `x` stems from the source: from the mnemonic's spelling and what the token
after it resolves to, or from `out` or `hlt` with operand 0 (R62, R67, R71). -/
def CodeStems (mode : SymbolMatch) (table : SymbolTable) (ts : List Token) (m : Mnemonic) (x : Nibble) : Prop :=
  (∃ p ∈ operandSpellings, ∃ before operand after, p.2.1 = m ∧ m.control.toNat = p.2.2 ∧
      ts = before ++ p.1 :: operand :: after ∧ resolveOperand mode table operand = .ok x) ∨
    (∃ p ∈ plainSpellings, p.2.1 = m ∧ m.control.toNat = p.2.2 ∧ p.1 ∈ ts ∧ x = 0#4)

/-- The data emission of `name` and `v` stems from a `db` with that name and a value that spells `v` (R72). -/
def DataStems (ts : List Token) (name : Token) (v : Byte) : Prop :=
  ∃ before value after, ts = before ++ dbSpelling :: name :: value :: after ∧ decimalByte value = some v

/-- The emission stems from the source's tokens. -/
def Emission.Stems (mode : SymbolMatch) (table : SymbolTable) (ts : List Token) : Emission → Prop
  | .code m x => CodeStems mode table ts m x
  | .data name v => DataStems ts name v

/-- What an emission stems from is still there with more tokens in front. -/
theorem Emission.Stems.append_left {mode : SymbolMatch} {table : SymbolTable} {ts : List Token} {e : Emission}
    (stems : e.Stems mode table ts) (front : List Token) : e.Stems mode table (front ++ ts) := by
  cases e with
  | code m x =>
    obtain ⟨p, listed, before, operand, after, mnemonic, control, split, resolved⟩ |
      ⟨p, listed, mnemonic, control, spelled, zero⟩ := stems
    · exact .inl ⟨p, listed, front ++ before, operand, after, mnemonic, control, by simp [split], resolved⟩
    · exact .inr ⟨p, listed, mnemonic, control, List.mem_append_right _ spelled, zero⟩
  | data name v =>
    obtain ⟨before, value, after, split, literal⟩ := stems
    exact ⟨front ++ before, value, after, by simp [split], literal⟩

theorem operandSpelling_of_keywordOf (t : Token) (m : Mnemonic) (kind : keywordOf t = some (.instr m))
    (takes : m.takesOperand = true) : ∃ p ∈ operandSpellings, p.1 = t ∧ p.2.1 = m := by
  obtain ⟨p, listed, rfl, mnemonic⟩ | ⟨-, isDb⟩ := (keywordOf_eq_some_iff ..).mp kind
  · cases mnemonic
    obtain listed | listed := List.mem_append.mp listed
    · exact ⟨p, listed, rfl, rfl⟩
    · cases takes.symm.trans (plainSpellings_columns p listed).2
  · cases isDb

theorem plainSpelling_of_keywordOf (t : Token) (m : Mnemonic) (kind : keywordOf t = some (.instr m))
    (plain : m.takesOperand = false) : ∃ p ∈ plainSpellings, p.1 = t ∧ p.2.1 = m := by
  obtain ⟨p, listed, rfl, mnemonic⟩ | ⟨-, isDb⟩ := (keywordOf_eq_some_iff ..).mp kind
  · cases mnemonic
    obtain listed | listed := List.mem_append.mp listed
    · cases plain.symm.trans (operandSpellings_columns p listed).2
    · exact ⟨p, listed, rfl, rfl⟩
  · cases isDb

theorem eq_dbSpelling_of_keywordOf (t : Token) (kind : keywordOf t = some .db) : t = dbSpelling := by
  obtain ⟨p, -, -, isInstr⟩ | ⟨spelled, -⟩ := (keywordOf_eq_some_iff ..).mp kind
  · cases isInstr
  · exact spelled

/-- Every emission of pass two stems from the tokens it went through (R76). -/
theorem Assembles.stems {mode : SymbolMatch} {table : SymbolTable} {off : Nat} {ts : List Token}
    {es : List Emission} (assembled : Assembles mode table off ts es) :
    ∀ e ∈ es, e.Stems mode table ts := by
  induction assembled with
  | nil off => simp
  | @skip off t ts es _ _ ih => exact fun e listed => (ih e listed).append_left [t]
  | @plain off t ts es m kind plain _ _ ih =>
    refine List.forall_mem_cons.mpr ⟨?_, fun e listed => (ih e listed).append_left [t]⟩
    obtain ⟨p, listed, rfl, rfl⟩ := plainSpelling_of_keywordOf t m kind plain
    exact .inr ⟨p, listed, rfl, (plainSpellings_columns p listed).1, List.mem_cons_self, rfl⟩
  | @operand off t o ts es m x kind takes resolved _ _ ih =>
    refine List.forall_mem_cons.mpr ⟨?_, fun e listed => (ih e listed).append_left [t, o]⟩
    obtain ⟨p, listed, rfl, rfl⟩ := operandSpelling_of_keywordOf t m kind takes
    exact .inl ⟨p, listed, [], o, ts, rfl, (operandSpellings_columns p listed).1, rfl, resolved⟩
  | @db off t name value ts es v kind literal _ _ ih =>
    refine List.forall_mem_cons.mpr ⟨?_, fun e listed => (ih e listed).append_left [t, name, value]⟩
    exact ⟨[], value, ts, by rw [eq_dbSpelling_of_keywordOf t kind]; rfl, literal⟩

/-! ### Decoding the image (R76) -/

@[simp] theorem Mnemonic.toInstr_opcode (m : Mnemonic) (x : Nibble) : (m.toInstr x).opcode = m.control := by
  cases m <;> rfl

@[simp] theorem Mnemonic.toInstr_operand (m : Mnemonic) (x : Nibble) : (m.toInstr x).operand = x := by
  cases m <;> rfl

theorem Mnemonic.toInstr_wellFormed (m : Mnemonic) (x : Nibble) : (m.toInstr x).WellFormed = true := by
  cases m <;> rfl

/-- An instruction that reads its operand is canonical, and one that does not is with operand 0 (R55). -/
theorem Mnemonic.toInstr_canonical (m : Mnemonic) (x : Nibble) (unread : m.takesOperand = false → x = 0#4) :
    (m.toInstr x).Canonical = true := by
  cases m with
  | out | hlt =>
    obtain rfl := unread rfl
    rfl
  | lda | add | sub | sta | jmp | ldi | jc => rfl

theorem Emission.byte_code (m : Mnemonic) (x : Nibble) :
    (Emission.code m x).byte = encodeByte (m.toInstr x) := by
  rw [Emission.byte, encodeByte, Mnemonic.toInstr_opcode, Mnemonic.toInstr_operand]

theorem CodeStems.operand_eq_zero {mode : SymbolMatch} {table : SymbolTable} {ts : List Token} {m : Mnemonic}
    {x : Nibble} (stems : CodeStems mode table ts m x) (plain : m.takesOperand = false) : x = 0#4 := by
  obtain ⟨p, listed, -, -, -, rfl, -⟩ | ⟨-, -, -, -, -, zero⟩ := stems
  · cases plain.symm.trans (operandSpellings_columns p listed).2
  · exact zero

/-- Settles O43: the emissions of the two passes, what each stems from by `Assembles.stems`, and the decoding of
an instruction emission's byte by `Emission.byte_code`. -/
theorem assembledCodeDecodesBack : Obligations.AssembledCodeDecodesBack := by
  intro mode src image answer
  obtain ⟨table, es, first, second, rfl⟩ := passes_of_assemble mode src image answer
  have stems := (assembles_of_passTwo mode table 0 _ es second).stems
  refine ⟨table, es, first, second, rfl, fun k m x emitted => ?_, fun k name v emitted => ?_⟩
  · have codeStems : CodeStems mode table (tokenize src) m x := stems _ (List.mem_of_getElem? emitted)
    refine ⟨⟨(Emission.code m x).byte, by rw [List.getElem?_map, emitted]; rfl, ?_, m.toInstr_opcode x,
      m.toInstr_operand x, m.toInstr_wellFormed x, m.toInstr_canonical x codeStems.operand_eq_zero⟩, codeStems⟩
    exact (decode_cons_eq_instr_iff ..).mpr ⟨(Emission.byte_code m x).symm, rfl⟩
  · exact stems _ (List.mem_of_getElem? emitted)

end Sys2Proof.Machine
end

section
/-! SUPPORT. References: the last matching name, and the form `[name]`. -/

namespace Sys2Proof.Machine

/-! ### The last matching name (R64, R65) -/

theorem lookupName_cons_of_some (mode : SymbolMatch) (r : Token) (entry : Token × Nat) (table : SymbolTable)
    (off : Nat) (found : lookupName mode r table = some off) :
    lookupName mode r (entry :: table) = some off := by
  simp only [lookupName, found]

theorem lookupName_cons_of_none (mode : SymbolMatch) (r n : Token) (off : Nat) (table : SymbolTable)
    (notFound : lookupName mode r table = none) :
    lookupName mode r ((n, off) :: table) = if mode.holds n r then some off else none := by
  simp only [lookupName, notFound]

theorem lookupName_eq_none_iff (mode : SymbolMatch) (r : Token) (table : SymbolTable) :
    lookupName mode r table = none ↔ ∀ p ∈ table, mode.holds p.1 r = false := by
  induction table with
  | nil => simp [lookupName]
  | cons entry table ih =>
    rw [List.forall_mem_cons, ← ih]
    cases rest : lookupName mode r table with
    | some found => simp [lookupName_cons_of_some mode r entry table found rest]
    | none => simp [lookupName_cons_of_none mode r entry.1 entry.2 table rest]

theorem lookupName_eq_some_iff (mode : SymbolMatch) (r : Token) (table : SymbolTable) (off : Nat) :
    lookupName mode r table = some off ↔
      ∃ before n after, table = before ++ (n, off) :: after ∧ mode.holds n r = true ∧
        ∀ p ∈ after, mode.holds p.1 r = false := by
  constructor
  · intro found
    induction table with
    | nil => cases found
    | cons entry table ih =>
      cases rest : lookupName mode r table with
      | some later =>
        rw [lookupName_cons_of_some mode r entry table later rest] at found
        obtain ⟨before, n, after, split, matchesLast⟩ := ih (rest.trans found)
        exact ⟨entry :: before, n, after, by rw [split, List.cons_append], matchesLast⟩
      | none =>
        rw [lookupName_cons_of_none mode r entry.1 entry.2 table rest, Option.ite_none_right_eq_some] at found
        obtain ⟨matched, here⟩ := found
        obtain rfl := Option.some.inj here
        exact ⟨[], entry.1, table, rfl, matched, (lookupName_eq_none_iff mode r table).mp rest⟩
  · rintro ⟨before, n, after, rfl, matched, last⟩
    induction before with
    | nil =>
      rw [List.nil_append, lookupName_cons_of_none mode r n off after
        ((lookupName_eq_none_iff mode r after).mpr last), if_pos matched]
    | cons entry before ih => exact lookupName_cons_of_some mode r entry _ off ih

theorem SymbolMatch.exact_holds_iff (n r : Token) : SymbolMatch.exact.holds n r = true ↔ n = r := by
  rw [SymbolMatch.holds, beq_iff_eq]

theorem SymbolMatch.byPrefix_holds_iff (n r : Token) :
    SymbolMatch.byPrefix.holds n r = true ↔ ∃ more, r = n ++ more := by
  rw [SymbolMatch.holds, List.isPrefixOf_iff_prefix, List.IsPrefix]
  simp only [eq_comm]

/-! ### The form of a reference (R67) -/

theorem isReference_iff (t : Token) : isReference t = true ↔ t.head? = some 0x5B#8 := beq_iff_eq

theorem isReference_eq_cons (t : Token) (bracketed : isReference t = true) : t = 0x5B#8 :: t.tail :=
  List.eq_cons_of_mem_head? ((isReference_iff t).mp bracketed)

/-- A name is read exactly from what stands before a last `]`, when that is not empty. -/
theorem referenceName_eq_some_iff (t name : Token) :
    referenceName t = some name ↔ t.tail = name ++ [0x5D#8] ∧ name ≠ [] := by
  unfold referenceName
  constructor
  · intro named
    cases last : t.tail.getLast? with
    | none => simp [last] at named
    | some b =>
      simp only [last, Option.ite_none_right_eq_some, Option.some.injEq] at named
      obtain ⟨⟨rfl, nonempty⟩, rfl⟩ := named
      exact ⟨(List.dropLast_append_getLast? _ last).symm, nonempty⟩
  · rintro ⟨tail, nonempty⟩
    simp [tail, nonempty]

/-- Settles O45: `lookupName_eq_some_iff`, `lookupName_eq_none_iff` and the two matching relations. -/
theorem lastMatchingNameWins : Obligations.LastMatchingNameWins := by
  refine ⟨lookupName_eq_some_iff, fun mode table t r bracketed named noMatch => ?_,
    SymbolMatch.exact_holds_iff, SymbolMatch.byPrefix_holds_iff⟩
  have notFound := (lookupName_eq_none_iff mode r table).mpr noMatch
  simp only [resolveOperand, bracketed, named, notFound, if_true]

/-- Settles O46: `referenceName_eq_some_iff`, with no name meaning a malformed reference. -/
theorem referenceFormIsChecked : Obligations.ReferenceFormIsChecked := by
  refine ⟨fun name nonempty => ⟨rfl, (referenceName_eq_some_iff ..).mpr ⟨rfl, nonempty⟩⟩,
    fun mode table t bracketed malformed => ?_⟩
  have noName : referenceName t = none := by
    rw [Option.eq_none_iff_forall_ne_some]
    intro name named
    obtain ⟨tail, nonempty⟩ := (referenceName_eq_some_iff ..).mp named
    exact malformed name nonempty (by rw [← tail]; exact isReference_eq_cons t bracketed)
  simp only [resolveOperand, bracketed, noName, if_true]

end Sys2Proof.Machine
end

section
/-! SUPPORT. Literals: a token of digits spells the number of its digits, in either base, with what may stand in
front of it. -/

namespace Sys2Proof.Machine

/-! ### Numbers spelled by digits -/

/-- The number that bytes spell in a base, after digits worth `acc`, where `digit` reads one byte: what
`hexValue` and `decimalValue` have in common. -/
def numberOf (base : Nat) (digit : Byte → Option Nat) (acc : Nat) : List Byte → Option Nat
  | [] => some acc
  | b :: bs => (digit b).bind fun d => numberOf base digit (base * acc + d) bs

theorem hexValue_eq_numberOf (acc : Nat) (bs : List Byte) : hexValue acc bs = numberOf 16 hexDigit acc bs := by
  induction bs generalizing acc with
  | nil => rfl
  | cons b bs ih =>
    rw [hexValue, numberOf]
    cases hexDigit b with
    | none => rfl
    | some d => exact ih _

theorem decimalValue_eq_numberOf (acc : Nat) (bs : List Byte) :
    decimalValue acc bs = numberOf 10 decimalDigit acc bs := by
  induction bs generalizing acc with
  | nil => rfl
  | cons b bs ih =>
    rw [decimalValue, numberOf]
    cases decimalDigit b with
    | none => rfl
    | some d => exact ih _

/-- Bytes spell a number exactly when they are the spellings of digits, and the number is those digits'. -/
theorem numberOf_eq_some_iff {α : Type} (base : Nat) (digit : Byte → Option Nat) (spell : α → Byte)
    (value : α → Nat) (reads : ∀ b d, digit b = some d ↔ ∃ a, b = spell a ∧ value a = d) (acc : Nat)
    (bs : List Byte) (n : Nat) :
    numberOf base digit acc bs = some n ↔
      ∃ ds : List α, bs = ds.map spell ∧ (ds.map value).foldl (fun acc d => base * acc + d) acc = n := by
  induction bs generalizing acc with
  | nil => simp [numberOf, eq_comm]
  | cons b bs ih =>
    simp only [numberOf, Option.bind_eq_some_iff, reads, ih]
    constructor
    · rintro ⟨_, ⟨a, rfl, rfl⟩, ds, rfl, rfl⟩
      exact ⟨a :: ds, rfl, rfl⟩
    · rintro ⟨ds, spelled, rfl⟩
      cases ds with
      | nil => cases spelled
      | cons a ds =>
        obtain ⟨rfl, rfl⟩ := List.cons.inj spelled
        exact ⟨_, ⟨a, rfl, rfl⟩, ds, rfl, rfl⟩

/-! ### Hexadecimal literals (R68) -/

theorem byte_eq_ofNat (b : Byte) (n : Nat) (number : b.toNat = n) : b = BitVec.ofNat 8 n := by
  rw [← number, BitVec.ofNat_toNat, BitVec.setWidth_eq]

theorem hexDigit_hexSpelling : ∀ d : Fin 16 × Bool, hexDigit (hexSpelling d) = some d.1.val := by decide

theorem hexDigit_eq_some_iff (b : Byte) (n : Nat) :
    hexDigit b = some n ↔ ∃ d : Fin 16 × Bool, b = hexSpelling d ∧ d.1.val = n := by
  constructor
  · intro digit
    unfold hexDigit at digit
    split_ifs at digit with decimal lower upper <;> obtain rfl := Option.some.inj digit
    · have small : b.toNat - 0x30 < 10 := by omega
      have byte := byte_eq_ofNat b (0x30 + (b.toNat - 0x30)) (by omega)
      exact ⟨(⟨_, Nat.lt_add_right 6 small⟩, false), byte.trans (if_pos small).symm, rfl⟩
    · have large : ¬ b.toNat - 0x61 + 10 < 10 := by omega
      have byte := byte_eq_ofNat b (0x61 + (b.toNat - 0x61 + 10 - 10)) (by omega)
      exact ⟨(⟨b.toNat - 0x61 + 10, by omega⟩, false), byte.trans (if_neg large).symm, rfl⟩
    · have large : ¬ b.toNat - 0x41 + 10 < 10 := by omega
      have byte := byte_eq_ofNat b (0x41 + (b.toNat - 0x41 + 10 - 10)) (by omega)
      exact ⟨(⟨b.toNat - 0x41 + 10, by omega⟩, true), byte.trans (if_neg large).symm, rfl⟩
  · rintro ⟨d, rfl, rfl⟩
    exact hexDigit_hexSpelling d

theorem hexValue_eq_some_iff (bs : List Byte) (n : Nat) :
    hexValue 0 bs = some n ↔
      ∃ ds : List (Fin 16 × Bool), bs = ds.map hexSpelling ∧ digitsValue 16 (ds.map fun d => d.1.val) = n := by
  rw [hexValue_eq_numberOf]
  exact numberOf_eq_some_iff 16 hexDigit hexSpelling (fun d => d.1.val) hexDigit_eq_some_iff 0 bs n

/-- The marks that may stand in front of a hexadecimal literal: none, `0x` and `0X`. -/
def hexMarks : List Token := [[], [0x30#8, 0x78#8], [0x30#8, 0x58#8]]

theorem exists_hexMark (t : Token) : ∃ mark ∈ hexMarks, t = mark ++ dropHexMark t := by
  unfold dropHexMark
  split
  · split
    next marked =>
      obtain ⟨rfl, rfl | rfl⟩ := marked
      · exact ⟨[0x30#8, 0x78#8], by decide, rfl⟩
      · exact ⟨[0x30#8, 0x58#8], by decide, rfl⟩
    · exact ⟨[], by decide, rfl⟩
  · exact ⟨[], by decide, rfl⟩

theorem hexSpelling_ne_mark : ∀ d : Fin 16 × Bool, hexSpelling d ≠ 0x78#8 ∧ hexSpelling d ≠ 0x58#8 := by decide

/-- No digit is spelled `x` or `X`, so a literal's mark is read off it. -/
theorem dropHexMark_append_digits (mark : Token) (listed : mark ∈ hexMarks) (ds : List (Fin 16 × Bool)) :
    dropHexMark (mark ++ ds.map hexSpelling) = ds.map hexSpelling := by
  simp only [hexMarks, List.mem_cons, List.not_mem_nil, or_false] at listed
  obtain rfl | rfl | rfl := listed
  · match ds with
    | [] | [_] => rfl
    | d :: e :: ds =>
      obtain ⟨notLower, notUpper⟩ := hexSpelling_ne_mark e
      simp [dropHexMark, notLower, notUpper]
  · rfl
  · rfl

theorem hexNibble_eq_some_iff (t : Token) (x : Nibble) :
    hexNibble t = some x ↔
      dropHexMark t ≠ [] ∧ ∃ n, hexValue 0 (dropHexMark t) = some n ∧ x.toNat = n % 16 := by
  unfold hexNibble
  cases dropHexMark t with
  | nil => simp
  | cons b bs =>
    simp only [Option.map_eq_some_iff, ← BitVec.toNat_inj, BitVec.toNat_ofNat]
    simp [eq_comm]

/-- Settles O47: the mark and the digits of a literal, each read off the token. -/
theorem hexLiteralsSpellTheirLowNibble : Obligations.HexLiteralsSpellTheirLowNibble := by
  refine ⟨fun t x => ?_, fun mode table t notBracketed => ?_⟩
  · rw [hexNibble_eq_some_iff]
    constructor
    · rintro ⟨nonempty, n, number, nibble⟩
      obtain ⟨mark, listed, split⟩ := exists_hexMark t
      obtain ⟨ds, spelled, rfl⟩ := (hexValue_eq_some_iff ..).mp number
      refine ⟨mark, listed, ds, ?_, split.trans (congrArg (mark ++ ·) spelled), nibble⟩
      rintro rfl
      exact nonempty spelled
    · rintro ⟨mark, listed, ds, nonempty, rfl, nibble⟩
      rw [dropHexMark_append_digits mark listed ds]
      exact ⟨by simpa using nonempty, _, (hexValue_eq_some_iff ..).mpr ⟨ds, rfl, rfl⟩, nibble⟩
  · have notReference : isReference t = false := by
      rwa [← Bool.not_eq_true, isReference_iff]
    exact ⟨fun x literal => by simp [resolveOperand, notReference, literal],
      fun notLiteral => by simp [resolveOperand, notReference, notLiteral]⟩

/-! ### Decimal values (R72) -/

theorem decimalDigit_decimalSpelling : ∀ d : Fin 10, decimalDigit (decimalSpelling d) = some d.val := by decide

theorem decimalDigit_eq_some_iff (b : Byte) (n : Nat) :
    decimalDigit b = some n ↔ ∃ d : Fin 10, b = decimalSpelling d ∧ d.val = n := by
  constructor
  · intro digit
    unfold decimalDigit at digit
    split_ifs at digit with decimal
    obtain rfl := Option.some.inj digit
    exact ⟨⟨b.toNat - 0x30, by omega⟩, byte_eq_ofNat b _ (by simp only; omega), rfl⟩
  · rintro ⟨d, rfl, rfl⟩
    exact decimalDigit_decimalSpelling d

theorem decimalNat_eq_some_iff (t : Token) (n : Nat) :
    decimalNat t = some n ↔
      ∃ ds : List (Fin 10), ds ≠ [] ∧ t = ds.map decimalSpelling ∧ digitsValue 10 (ds.map Fin.val) = n := by
  cases t with
  | nil => simp [decimalNat]
  | cons b bs =>
    rw [decimalNat, decimalValue_eq_numberOf,
      numberOf_eq_some_iff 10 decimalDigit decimalSpelling Fin.val decimalDigit_eq_some_iff]
    constructor
    · rintro ⟨ds, spelled, number⟩
      exact ⟨ds, fun empty => by subst empty; simp at spelled, spelled, number⟩
    · rintro ⟨ds, -, spelled, number⟩
      exact ⟨ds, spelled, number⟩

theorem decimalSpelling_ne_minus : ∀ d : Fin 10, decimalSpelling d ≠ 0x2D#8 := by decide

/-- A value without a minus is not read as one with it, since no digit is spelled `-`. -/
theorem head?_map_decimalSpelling_ne (ds : List (Fin 10)) :
    (ds.map decimalSpelling).head? ≠ some 0x2D#8 := by
  cases ds with
  | nil => simp
  | cons d ds => simpa using decimalSpelling_ne_minus d

theorem decimalByte_minus (t : Token) :
    decimalByte (0x2D#8 :: t) = (decimalNat t).map fun (n : Nat) => BitVec.ofInt 8 (-(n : Int)) := by
  rw [decimalByte, if_pos rfl]

theorem decimalByte_of_head?_ne (t : Token) (noMinus : t.head? ≠ some 0x2D#8) :
    decimalByte t = (decimalNat t).map fun (n : Nat) => BitVec.ofInt 8 (n : Int) := by
  cases t with
  | nil => rfl
  | cons b bs =>
    have notMinus : b ≠ 0x2D#8 := by simpa using noMinus
    simp only [BitVec.ofInt_natCast]
    exact if_neg notMinus

theorem ofInt_eq_iff (v : Byte) (z : Int) : BitVec.ofInt 8 z = v ↔ (v.toNat : Int) = z % 256 := by
  have nonneg : 0 ≤ z % 256 := Int.emod_nonneg _ (by decide)
  rw [← BitVec.toNat_inj, BitVec.toNat_ofInt]
  omega

/-- The values of a `db`: digits with an optional minus, and the number's byte (R72). -/
theorem decimalByte_eq_some_iff (t : Token) (v : Byte) :
    decimalByte t = some v ↔ ∃ ds : List (Fin 10), ds ≠ [] ∧
      ((t = ds.map decimalSpelling ∧ (v.toNat : Int) = (digitsValue 10 (ds.map Fin.val) : Int) % 256) ∨
       (t = 0x2D#8 :: ds.map decimalSpelling ∧
          (v.toNat : Int) = (-(digitsValue 10 (ds.map Fin.val) : Int)) % 256)) := by
  constructor
  · intro literal
    by_cases minus : t.head? = some 0x2D#8
    · obtain ⟨bs, rfl⟩ : ∃ bs, t = 0x2D#8 :: bs := ⟨_, List.eq_cons_of_mem_head? minus⟩
      rw [decimalByte_minus, Option.map_eq_some_iff] at literal
      obtain ⟨n, number, byte⟩ := literal
      obtain ⟨ds, nonempty, rfl, rfl⟩ := (decimalNat_eq_some_iff ..).mp number
      exact ⟨ds, nonempty, .inr ⟨rfl, (ofInt_eq_iff ..).mp byte⟩⟩
    · rw [decimalByte_of_head?_ne t minus, Option.map_eq_some_iff] at literal
      obtain ⟨n, number, byte⟩ := literal
      obtain ⟨ds, nonempty, rfl, rfl⟩ := (decimalNat_eq_some_iff ..).mp number
      exact ⟨ds, nonempty, .inl ⟨rfl, (ofInt_eq_iff ..).mp byte⟩⟩
  · rintro ⟨ds, nonempty, ⟨rfl, byte⟩ | ⟨rfl, byte⟩⟩
    · rw [decimalByte_of_head?_ne _ (head?_map_decimalSpelling_ne ds), Option.map_eq_some_iff]
      exact ⟨_, (decimalNat_eq_some_iff ..).mpr ⟨ds, nonempty, rfl, rfl⟩, (ofInt_eq_iff ..).mpr byte⟩
    · rw [decimalByte_minus, Option.map_eq_some_iff]
      exact ⟨_, (decimalNat_eq_some_iff ..).mpr ⟨ds, nonempty, rfl, rfl⟩, (ofInt_eq_iff ..).mpr byte⟩

/-- Settles O48: `decimalByte_eq_some_iff`, and pass two's laws for a `db`. -/
theorem decimalValuesSpellTheirByte : Obligations.DecimalValuesSpellTheirByte := by
  refine ⟨decimalByte_eq_some_iff, fun mode table off name value ts => ⟨fun notLiteral => ?_,
    fun v es literal below rest => ⟨.data name v, ?_, rfl⟩⟩⟩
  · exact passTwo_db_badLiteral _ _ _ _ _ name value keywordOf_dbSpelling notLiteral
  · rw [passTwo_dbSpelling mode table off name value v ts literal, rest, emitAt_below _ _ _ below]

end Sys2Proof.Machine
end

section
/-! SUPPORT. Tokens: what `tokenize` makes of a text, with the bytes of a token that has begun. -/

namespace Sys2Proof.Machine

theorem isSeparator_iff (b : Byte) :
    isSeparator b = true ↔ b.toNat ∈ [0x00, 0x09, 0x0A, 0x0B, 0x0C, 0x0D, 0x20] := by
  simp [isSeparator, ← BitVec.toNat_inj, or_assoc]

theorem tokensFrom_cons_separator (acc : Token) (b : Byte) (bs : List Byte) (separator : isSeparator b = true) :
    tokensFrom acc (b :: bs) = tokensFrom acc [] ++ tokensFrom [] bs := by
  rw [tokensFrom, tokensFrom, if_pos separator]
  split <;> rfl

theorem tokensFrom_cons_other (acc : Token) (b : Byte) (bs : List Byte) (other : isSeparator b = false) :
    tokensFrom acc (b :: bs) = tokensFrom (acc ++ [b]) bs := by
  rw [tokensFrom, if_neg (Bool.eq_false_iff.mp other)]

/-- A separator ends the token that has begun, and what follows it is tokenized afresh (R61). -/
theorem tokensFrom_append_separator (acc : Token) (before after : List Byte) (b : Byte)
    (separator : isSeparator b = true) :
    tokensFrom acc (before ++ b :: after) = tokensFrom acc before ++ tokensFrom [] after := by
  induction before generalizing acc with
  | nil => exact tokensFrom_cons_separator acc b after separator
  | cons b' before ih =>
    rw [List.cons_append]
    cases kind : isSeparator b' with
    | true => rw [tokensFrom_cons_separator _ _ _ kind, tokensFrom_cons_separator _ _ _ kind, ih,
        List.append_assoc]
    | false => rw [tokensFrom_cons_other _ _ _ kind, tokensFrom_cons_other _ _ _ kind, ih]

/-- Bytes without a separator all belong to the token that has begun. -/
theorem tokensFrom_of_no_separator (acc : Token) (bs : List Byte) (noSeparator : ∀ b ∈ bs, isSeparator b = false) :
    tokensFrom acc bs = tokensFrom (acc ++ bs) [] := by
  induction bs generalizing acc with
  | nil => rw [List.append_nil]
  | cons b bs ih =>
    obtain ⟨other, noSeparator⟩ := List.forall_mem_cons.mp noSeparator
    rw [tokensFrom_cons_other _ _ _ other, ih _ noSeparator, List.append_assoc, List.singleton_append]

/-- The token that has begun, if any, is the only one where the text ends. -/
theorem mem_tokensFrom_nil (acc : Token) (accNone : ∀ b ∈ acc, isSeparator b = false) :
    ∀ t ∈ tokensFrom acc [], t ≠ [] ∧ ∀ b ∈ t, isSeparator b = false := by
  rw [tokensFrom]
  split
  · simp
  next begun => exact List.forall_mem_singleton.mpr ⟨begun, accNone⟩

/-- Tokens are not empty and hold no separator, if the token that has begun holds none (R61). -/
theorem mem_tokensFrom (acc : Token) (bs : List Byte) (accNone : ∀ b ∈ acc, isSeparator b = false) :
    ∀ t ∈ tokensFrom acc bs, t ≠ [] ∧ ∀ b ∈ t, isSeparator b = false := by
  induction bs generalizing acc with
  | nil => exact mem_tokensFrom_nil acc accNone
  | cons b bs ih =>
    cases kind : isSeparator b with
    | true =>
      rw [tokensFrom_cons_separator _ _ _ kind]
      exact List.forall_mem_append.mpr ⟨mem_tokensFrom_nil acc accNone, ih [] (by simp)⟩
    | false =>
      rw [tokensFrom_cons_other _ _ _ kind]
      exact ih _ (List.forall_mem_append.mpr ⟨accNone, List.forall_mem_singleton.mpr kind⟩)

/-- Settles O40: each clause of the definition of tokens by its law for `tokensFrom`. -/
theorem tokensAreMaximalRuns : Obligations.TokensAreMaximalRuns := by
  refine ⟨isSeparator_iff, rfl, fun src => mem_tokensFrom [] src (by simp), fun src nonempty noSeparator => ?_,
    fun before after b => tokensFrom_append_separator [] before after b⟩
  rw [tokenize, tokensFrom_of_no_separator [] src noSeparator, List.nil_append, tokensFrom, if_neg nonempty]

end Sys2Proof.Machine
end
